-- ==== Sys2Proof/Word.lean ====
section
/-!
DEFINITION. The engine's two unit types (R7, R8, R12): the 32-bit unsigned word and the 8-bit byte, and the
group of four words that both the chaining state A..D (R20) and the working registers a..d (R22) are.
-/

namespace Sys2Proof

/-- A state, message or constant word: 32 bits, unsigned (R7 WORD_BITS, R8). -/
abbrev Word := BitVec 32

/-- One byte of message, buffer or digest: an 8-bit pattern with no sign (R73). -/
abbrev Byte := BitVec 8

/-- Four 32-bit words under the role names of the specification: A, B, C, D for the chaining state (R20) and
a, b, c, d for the working registers (R22). -/
structure Quad where
  a : Word
  b : Word
  c : Word
  d : Word
deriving DecidableEq, Repr

/-- Word `i` of a group of four: S_0 = A, S_1 = B, S_2 = C, S_3 = D (R54, R152). -/
def Quad.get (q : Quad) (i : Fin 4) : Word :=
  match i with
  | 0 => q.a
  | 1 => q.b
  | 2 => q.c
  | 3 => q.d

end Sys2Proof
end

