-- ==== Sys2Proof/Config.lean ====
section
/-!
DEFINITION. What one implementation of the engine fixes and the specification leaves open. Both constants are
opaque: nothing can evaluate them, so no statement can rest on a value of theirs.
-/

namespace Sys2Proof

/-- FREE VALUE. The word on RESP while RESP_VALID = 0 (R32, R36; 93_implementation_defined.md U16: "any value:
the host must not read it"). The argument is the plain counter `State.freeTick`, so that every acceptance may
leave another word there. Assumption log 3. -/
opaque Config.respWhileInvalid : Nat → Word

/-- OPEN PARAMETER. LATENCY, the time from accepting the n-th command to its response (R7, R276, decision D23).
"No rule of this spec depends on it": no definition of the model reads it. Assumption log 12. -/
opaque Config.latency : Nat → Nat

end Sys2Proof
end

