-- ==== Sys2Proof/Machine/Datapath.lean ====
section
/-!
DEFINITION. The combinational units of 42_datapath.md: the adder, the rotator, the four mixing functions, the
constant ROM, the shift and message-index ROM, and the step body of 43_compression.md R207 built from them. "Each is
a pure function. None has state, raises an exception or writes a flag."
-/

namespace Sys2Proof.Machine

/-! ## Adder and rotator -/

/-- ADD32(x, y) = (x + y) mod 2^32; the carry is discarded (R170). -/
def add32 (x y : Word) : Word := x + y

/-- rotl32(x, s), the left rotation of a word by s in 0..31 (R172). -/
def rotl32 (x : Word) (s : BitVec 5) : Word :=
  if s = 0 then x else (x <<< s.toNat) ||| (x >>> (32 - s.toNat))

/-- The word-by-word ADD32 of two groups of four words, the adder of the feed-forward (R210). -/
def addQuad (x y : Quad) : Quad := ⟨add32 x.a y.a, add32 x.b y.b, add32 x.c y.c, add32 x.d y.d⟩

/-! ## Mixing functions -/

/-- F(x, y, z) = (x & y) | (~x & z) (R174). -/
def mixF (x y z : Word) : Word := (x &&& y) ||| (~~~x &&& z)

/-- G(x, y, z) = (x & z) | (y & ~z) (R175). -/
def mixG (x y z : Word) : Word := (x &&& z) ||| (y &&& ~~~z)

/-- H(x, y, z) = x ^ y ^ z (R176). -/
def mixH (x y z : Word) : Word := x ^^^ y ^^^ z

/-- I(x, y, z) = y ^ (x | ~z) (R177). -/
def mixI (x y z : Word) : Word := y ^^^ (x ||| ~~~z)

/-- Function select: round r uses FUN_r, where FUN_0 = F, FUN_1 = G, FUN_2 = H and FUN_3 = I (R178). -/
def funSel (r : BitVec 2) : Word → Word → Word → Word :=
  match r.toNat with
  | 0 => mixF
  | 1 => mixG
  | 2 => mixH
  | _ => mixI

/-! ## ROMs -/

/-- KROM, rows 0..7 to 24..31 of the table of R180. -/
def kromLow : List Word :=
  [0xD76AA478, 0xE8C7B756, 0x242070DB, 0xC1BDCEEE, 0xF57C0FAF, 0x4787C62A, 0xA8304613, 0xFD469501] ++
  [0x698098D8, 0x8B44F7AF, 0xFFFF5BB1, 0x895CD7BE, 0x6B901122, 0xFD987193, 0xA679438E, 0x49B40821] ++
  [0xF61E2562, 0xC040B340, 0x265E5A51, 0xE9B6C7AA, 0xD62F105D, 0x02441453, 0xD8A1E681, 0xE7D3FBC8] ++
  [0x21E1CDE6, 0xC33707D6, 0xF4D50D87, 0x455A14ED, 0xA9E3E905, 0xFCEFA3F8, 0x676F02D9, 0x8D2A4C8A]

/-- KROM, rows 32..39 to 56..63 of the table of R180. KROM[47] = 0xC4AC5665 is the standard constant, not the
original code's malformed literal (R267, 90_conflicts.md C2). -/
def kromHigh : List Word :=
  [0xFFFA3942, 0x8771F681, 0x6D9D6122, 0xFDE5380C, 0xA4BEEA44, 0x4BDECFA9, 0xF6BB4B60, 0xBEBFBC70] ++
  [0x289B7EC6, 0xEAA127FA, 0xD4EF3085, 0x04881D05, 0xD9D4D039, 0xE6DB99E5, 0x1FA27CF8, 0xC4AC5665] ++
  [0xF4292244, 0x432AFF97, 0xAB9423A7, 0xFC93A039, 0x655B59C3, 0x8F0CCC92, 0xFFEFF47D, 0x85845DD1] ++
  [0x6FA87E4F, 0xFE2CE6E0, 0xA3014314, 0x4E0811A1, 0xF7537E82, 0xBD3AF235, 0x2AD7D2BB, 0xEB86D391]

/-- The contents of the constant ROM (R180). -/
def kromTable : List Word := kromLow ++ kromHigh

/-- KROM[i], the round constant of step i (R180, R184). The table has 64 entries, so the default is never read. -/
def krom (i : BitVec 6) : Word := kromTable.getD i.toNat 0

/-- The sixteen rotate amounts of SROM, S[r][p] at 4r + p (R182). -/
def sromTable : List (BitVec 5) :=
  [7, 12, 17, 22, 5, 9, 14, 20, 4, 11, 16, 23, 6, 10, 15, 21]

/-- S[r][p], the rotate amount of round r and position p (R182, R184). The table has 16 entries, so the default is
never read. -/
def srom (r p : BitVec 2) : BitVec 5 := sromTable.getD (4 * r.toNat + p.toNat) 0

/-- Round r = STEP[5:4] of step i (R205). -/
def roundOf (i : BitVec 6) : BitVec 2 := i.extractLsb' 4 2

/-- Position p = STEP[1:0] of step i (R205). -/
def posOf (i : BitVec 6) : BitVec 2 := i.extractLsb' 0 2

/-- The message-word index g(i) (R183). `BitVec.ofNat 4` is the reduction modulo 16. -/
def msgIndex (i : BitVec 6) : BitVec 4 :=
  match (roundOf i).toNat with
  | 0 => BitVec.ofNat 4 i.toNat
  | 1 => BitVec.ofNat 4 (5 * i.toNat + 1)
  | 2 => BitVec.ofNat 4 (3 * i.toNat + 5)
  | _ => BitVec.ofNat 4 (7 * i.toNat)

/-! ## The step body -/

/-- The adder tree's sum t = ADD32(ADD32(ADD32(a, f), X[g]), K) (R171). -/
def stepSum (f : Word → Word → Word → Word) (x : Vector Word 16) (i : BitVec 6) (w : Quad) : Word :=
  add32 (add32 (add32 w.a (f w.b w.c w.d)) (x[(msgIndex i).toNat]'(msgIndex i).isLt)) (krom i)

/-- The common step body of R207 with mixing function `f`: one new value, then the role rotation
(a, b, c, d) <- (d, nb, b, c), all four right-hand values read before any is written. -/
def stepBody (f : Word → Word → Word → Word) (x : Vector Word 16) (i : BitVec 6) (w : Quad) : Quad :=
  ⟨w.d, add32 w.b (rotl32 (stepSum f x i w) (srom (roundOf i) (posOf i))), w.b, w.c⟩

/-! ## Initial values -/

/-- The initial values of the state words, the four constants of init() (R21). -/
def iv : Quad := ⟨0x67452301, 0xEFCDAB89, 0x98BADCFE, 0x10325476⟩

end Sys2Proof.Machine
end

