-- ==== Sys2Proof/Machine/State.lean ====
section
/-!
DEFINITION. The engine's state (10_state.md), every register, array, flag and port of it, with the host's side of the
command port; the reasons a step can stop; and the state right after reset (R36). Everything is plain data.
-/

namespace Sys2Proof.Machine

/-- The sequencer state that started a transform and is resumed after it: APPEND or PAD (R31, R210). -/
inductive Starter where
  | append
  | pad
deriving DecidableEq, Repr

/-- SEQ, the sequencer state (R31): IDLE between commands, APPEND while an UPDATE presents its bytes, COMPRESS while a
transform runs its steps, PAD while FINAL runs the padding sequence. COMPRESS remembers the state it resumes. -/
inductive Seq where
  | idle
  | append
  | compress (startedBy : Starter)
  | pad
deriving DecidableEq, Repr

/-- What the host does next at the engine's inputs (R108). -/
inductive HostEvent where
  /-- Put a command word on CMD with CMD_VALID = 1. -/
  | issue (w : Word)
  /-- Do nothing for one step of the engine: "wait any number of cycles before issuing". -/
  | wait
  /-- Assert the reset input RST, which the host may do "at any time", a command in progress or not (R261). -/
  | assertReset
  /-- Deassert RST. -/
  | releaseReset
deriving DecidableEq, Repr

/-- The machine. The engine's own state comes first, then its ports, then the model's own fields. -/
structure State where
  /-- A, B, C, D: the chaining state (R20). -/
  chain : Quad
  /-- a, b, c, d: the working registers (R22). -/
  work : Quad
  /-- COUNT: the 64-bit bit counter, modulo 2^64 (R23). -/
  count : BitVec 64
  /-- BUF: the 64-byte block buffer (R24). -/
  buf : Vector Byte 64
  /-- X: the 16-word decode buffer (R25). -/
  xbuf : Vector Word 16
  /-- DIGEST: the 16-byte digest register (R26). -/
  digest : Vector Byte 16
  /-- FINALIZED (R27), STATUS[0]. -/
  finalized : Bool
  /-- ERR, the sticky error flag (R28), STATUS[1]. -/
  err : Bool
  /-- SEQ: the sequencer state (R31). -/
  seq : Seq
  /-- STEP: the 6-bit step counter (R31). -/
  stepCtr : BitVec 6
  /-- The bytes that the command in progress has still to present to the buffer, in order: UPDATE's bytes in APPEND, the
  padding and the length suffix LEN in PAD (R102, R148). Empty between commands. Assumption log 6. -/
  pending : List Byte
  /-- RESP: the response word (R32, R76). -/
  resp : Word
  /-- RESP_VALID (R32). -/
  respValid : Bool
  /-- CMD: the command word the host drives (R32). -/
  cmd : Word
  /-- CMD_VALID (R32). -/
  cmdValid : Bool
  /-- RST: the reset input (R32, R260). -/
  rst : Bool
  /-- What the host will do next, in order (R108, R270). Assumption log 2. -/
  host : List HostEvent
  /-- A second, unarbitrated host drives the same command port (R62, R268). Assumption log 8. -/
  secondHost : Bool
  /-- The model's own counter that numbers the free values of RESP (U16). Assumption log 3. -/
  freeTick : Nat
  /-- T, the number of transforms run since reset (95_test_vectors.md, Notation): the model's own count of work, which no
  rule reads. Assumption log 7. -/
  transforms : Nat
deriving DecidableEq, Repr

/-- READY: 1 exactly when SEQ = IDLE and RST is deasserted (R32). -/
def State.ready (s : State) : Bool := s.seq == .idle && !s.rst

/-- The reasons to stop with a fault: none. "The engine has no trap" (R237), "No datapath operation can fail" (R230), and
every misuse is a response with an error status and a next state (R231). Assumption log 18. -/
inductive Fault : Type where
deriving DecidableEq, Repr

/-- The reasons to refuse a step. -/
inductive Refusal where
  /-- `exec` answers this for an instruction with no meaning yet; no arm of this model does. Safe. -/
  | notModelled (mnemonic : String)
  /-- `step` answers this when a second, unarbitrated host drives the engine: "A model refuses such a launch" (R62,
  R268, decision D27). Safe: nothing is claimed of such a run. -/
  | twoHosts
deriving DecidableEq, Repr

/-- Every byte of a storage array zero. -/
def zeroBuf : Vector Byte 64 := Vector.replicate 64 0

/-- Every decode word zero. -/
def zeroX : Vector Word 16 := Vector.replicate 16 0

/-- Every digest byte zero. -/
def zeroDigest : Vector Byte 16 := Vector.replicate 16 0

/-- Four zero words. -/
def zeroQuad : Quad := ⟨0, 0, 0, 0⟩

/-- The machine right after reset, RST deasserted (R36, R260). The specification gives every value up to STEP, and
RESP_VALID. It gives none for RESP ("unspecified and never valid") and for the host's inputs; the zeros there are the
model's (DESIGN CHOICE, unsafe, assumption logs 4 and 5), as are those of the model's own fields (logs 3, 6, 7). -/
def State.reset : State where
  chain := iv
  work := zeroQuad
  count := 0
  buf := zeroBuf
  xbuf := zeroX
  digest := zeroDigest
  finalized := false
  err := false
  seq := .idle
  stepCtr := 0
  pending := []
  resp := 0
  respValid := false
  cmd := 0
  cmdValid := false
  rst := false
  host := []
  secondHost := false
  freeTick := 0
  transforms := 0

end Sys2Proof.Machine
end

