-- ==== Sys2Proof/Machine/Flags.lean ====
section
/-!
DEFINITION. Status codes, the response word, and the STATUS register (R29, R76, R231). The engine has no arithmetic
flags (R30): FINALIZED and ERR are all there is.
-/

namespace Sys2Proof.Machine

/-- The status codes of R231 that are ever produced. -/
inductive Status where
  | ok
  | eIllegal
  | eFinalized
  | eNotFinal
deriving DecidableEq, Repr

/-- The code in RESP[31:24] (R76, R231). -/
def Status.code : Status → BitVec 8
  | .ok => 0x00
  | .eIllegal => 0x01
  | .eFinalized => 0x02
  | .eNotFinal => 0x03

/-- The response word: STATUS in 31:24, zeros in 23:8, RDATA in 7:0 (R76). -/
def respWord (st : Status) (rdata : Byte) : Word := st.code ++ 0#16 ++ rdata

/-- RESP[31:24] (R76). -/
def respStatus (w : Word) : BitVec 8 := w.extractLsb' 24 8

/-- RESP[7:0] (R76). -/
def respData (w : Word) : Byte := w.extractLsb' 0 8

/-- The STATUS register: bit 0 FINALIZED, bit 1 ERR, bits 7:2 hardwired 0 (R29). -/
def statusReg (s : State) : Byte := 0#6 ++ BitVec.ofBool s.err ++ BitVec.ofBool s.finalized

end Sys2Proof.Machine
end

