-- ==== Sys2Proof/Machine/Operands.lean ====
section
/-!
DEFINITION. Operand assembly and the little-endian units: the fill index (R141), the decoder of BUF into X (R185), the
digest and length encoders (R186, R187), the padding (R149) and the hex renderer (R188).
-/

namespace Sys2Proof.Machine

/-- The fill index, COUNT[8:3] (R141). -/
def fillIndex (count : BitVec 64) : BitVec 6 := count.extractLsb' 3 6

/-- COUNT_LO = COUNT[31:0] (R23). -/
def countLo (count : BitVec 64) : Word := count.extractLsb' 0 32

/-- COUNT_HI = COUNT[63:32] (R23). -/
def countHi (count : BitVec 64) : Word := count.extractLsb' 32 32

/-- Four bytes as a little-endian word: the byte at the lowest offset is the least significant (R53, R185). -/
def wordLE (b0 b1 b2 b3 : Byte) : Word :=
  b0.setWidth 32 ||| (b1.setWidth 32 <<< 8) ||| (b2.setWidth 32 <<< 16) ||| (b3.setWidth 32 <<< 24)

/-- MemRead(BUF:4j, 4), word j of the block (R54, R185). -/
def bufWord (buf : Vector Byte 64) (j : Fin 16) : Word :=
  wordLE buf[4 * j.val] buf[4 * j.val + 1] buf[4 * j.val + 2] buf[4 * j.val + 3]

/-- The LE decoder: X[j] = MemRead(BUF:4j, 4) for j = 0..15 (R185). -/
def decodeBlock (buf : Vector Byte 64) : Vector Word 16 := Vector.ofFn (bufWord buf)

/-- Byte `j` of a word, v[8j+7:8j] (R53). -/
def byteOfWord (v : Word) (j : Nat) : Byte := v.extractLsb' (8 * j) 8

/-- The LE digest encoder: DIGEST[4w+j] = S_w[8j+7:8j] (R152, R186). -/
def encodeDigest (q : Quad) : Vector Byte 16 :=
  Vector.ofFn fun k => byteOfWord (q.get ⟨k.val / 4, by omega⟩) (k.val % 4)

/-- The LE length encoder: LEN[k] = L[8k+7:8k] for k = 0..7 (R147, R187). -/
def lengthBytes (len : BitVec 64) : List Byte :=
  [len.extractLsb' 0 8, len.extractLsb' 8 8, len.extractLsb' 16 8, len.extractLsb' 24 8,
   len.extractLsb' 32 8, len.extractLsb' 40 8, len.extractLsb' 48 8, len.extractLsb' 56 8]

/-- padLen, the total padding length for a fill index (R148, R149). -/
def padLen (idx : BitVec 6) : Nat := if idx.toNat < 56 then 56 - idx.toNat else 120 - idx.toNat

/-- The bytes FINAL presents after the message (R148): 0x80, then padLen - 1 zero bytes (R149), then the suffix LEN of the
count captured before padding (R147, R150). -/
def padBytes (count : BitVec 64) : List Byte :=
  (0x80 : Byte) :: (List.replicate (padLen (fillIndex count) - 1) 0 ++ lengthBytes count)

/-- HexChar(n): the ASCII code of a lowercase hex digit (R188). -/
def hexChar (n : BitVec 4) : Byte :=
  if n.toNat ≤ 9 then 0x30 + n.setWidth 8 else 0x61 + (n.setWidth 8 - 10)

/-- DIGEST[i], for RDIG's index (R74, R104). -/
def digestByte (d : Vector Byte 16) (i : BitVec 4) : Byte := d[i.toNat]'i.isLt

/-- The nibble of hex character j: the high nibble of DIGEST[j >> 1] when j is even, the low one when odd (R105, R188). -/
def digestNibble (d : Vector Byte 16) (j : BitVec 5) : BitVec 4 :=
  let byte := digestByte d (j.extractLsb' 1 4)
  if j.extractLsb' 0 1 = 0 then byte.extractLsb' 4 4 else byte.extractLsb' 0 4

end Sys2Proof.Machine
end

