-- ==== Sys2Proof/Machine/Ops.lean ====
section
/-!
DEFINITION. The shared operations: accepting a command and responding (R32, R100), reporting an error (R233), appending a
byte (R142), the transform (R209 to R211), the padding sequence (R148) and hardware reset (R260). The engine takes no
exception and returns from none (R237, R238): `raise` is all that an error does.
-/

namespace Sys2Proof.Machine

/-! ## The command and response ports -/

/-- Accept the word on CMD (R32, R100 stage 1): RESP_VALID falls, and RESP is any value until the response (U16). The host
takes its word off the port (assumption log 2). -/
def accept (s : State) : State :=
  { s with cmdValid := false, respValid := false, resp := Config.respWhileInvalid s.freeTick, freeTick := s.freeTick + 1 }

/-- `respond(status, data)`: the command's one response (R10, R76, R100 stage 4), and SEQ returns to IDLE. -/
def respond (st : Status) (rdata : Byte) (s : State) : State :=
  { s with resp := respWord st rdata, respValid := true, seq := .idle }

/-- `raise E_x()`: respond with the error and RDATA = 0, and set the sticky ERR (R10, R233). -/
def raise (st : Status) (s : State) : State :=
  { respond st 0 s with err := true }

/-! ## Compression -/

/-- Which sequencer state a transform resumes (R31, R210). -/
def Seq.starter : Seq → Starter
  | .pad => .pad
  | .compress k => k
  | .append => .append
  | .idle => .append

/-- The sequencer state a starter stands for. -/
def Starter.seq : Starter → Seq
  | .append => .append
  | .pad => .pad

/-- Transform start (R209): SEQ <- COMPRESS, BUF decoded into X, the working words loaded, STEP <- 0. -/
def startTransform (s : State) : State :=
  { s with seq := .compress s.seq.starter, xbuf := decodeBlock s.buf, work := s.chain, stepCtr := 0 }

/-- Feed-forward and cleanup (R210), then the zeroing of BUF that follows a transform (R143). -/
def finishTransform (s : State) : State :=
  { s with
    chain := addQuad s.chain s.work, xbuf := zeroX, stepCtr := 0, seq := s.seq.starter.seq, buf := zeroBuf,
    transforms := s.transforms + 1 }

/-- One step micro-operation with mixing function `f` at index `i` (R207): the working words are rewritten and STEP
advances; "after step 63: feed-forward, rule R210". -/
def microOp (f : Word → Word → Word → Word) (i : BitVec 6) (s : State) : State :=
  let t := { s with work := stepBody f s.xbuf i s.work }
  if i = 63 then finishTransform t else { t with stepCtr := i + 1 }

/-- The micro-operation that STEP selects (R205). -/
def seqMicroOp (s : State) : State := microOp (funSel (roundOf s.stepCtr)) s.stepCtr s

/-- `n` steps of the compression sequencer. -/
def runMicroOps : Nat → State → State
  | 0, s => s
  | n + 1, s => runMicroOps n (seqMicroOp s)

/-- Transform(), the whole compression of one block (R211): the start, 64 steps, the feed-forward. -/
def transform (s : State) : State := runMicroOps 64 (startTransform s)

/-! ## The block buffer -/

/-- The storing half of AppendByte (R142): BUF[fill] <- v, COUNT <- COUNT + 8 modulo 2^64 (R23, R146). -/
def storeByte (v : Byte) (s : State) : State :=
  { s with buf := s.buf.set (fillIndex s.count).toNat v (fillIndex s.count).isLt, count := s.count + 8 }

/-- AppendByte(v) (R142): store the byte; the one that fills BUF[63] runs Transform at once (R143). -/
def appendByte (v : Byte) (s : State) : State :=
  if fillIndex s.count = 63 then transform (storeByte v s) else storeByte v s

/-- AppendByte of each byte in order. -/
def appendBytes : List Byte → State → State
  | [], s => s
  | v :: vs, s => appendBytes vs (appendByte v s)

/-! ## UPDATE and FINAL -/

/-- UPDATE's body for its bytes in lane order (R102): the FINALIZED check comes before any effect (R234). -/
def absorb (bytes : List Byte) (s : State) : State :=
  if s.finalized then raise .eFinalized s
  else respond .ok 0 (appendBytes bytes { s with seq := .append })

/-- The end of the padding sequence (R152, R153): the digest is formed, BUF and COUNT are zeroed, FINALIZED <- 1. -/
def freezeDigest (s : State) : State :=
  { s with digest := encodeDigest s.chain, buf := zeroBuf, count := 0, finalized := true }

/-- PadAndFinish (R148): the length is captured before the padding changes COUNT. -/
def padAndFinish (s : State) : State :=
  freezeDigest (appendBytes (padBytes s.count) { s with seq := .pad })

/-- A read of the digest (R104, R105): rejected while FINALIZED = 0 (R235), else OK with the byte. -/
def readDigest (rdata : Byte) (s : State) : State :=
  if s.finalized then respond .ok rdata s else raise .eNotFinal s

/-! ## Reset and the host -/

/-- Hardware reset (R36, R260): every piece of the engine's state takes its reset value, and a command in progress is
abandoned with no response (R261). The inputs and the host's intentions are not the engine's to reset. -/
def hardReset (s : State) : State :=
  { State.reset with
    cmd := s.cmd, cmdValid := s.cmdValid, rst := s.rst, host := s.host, secondHost := s.secondHost, freeTick := s.freeTick }

/-- One event of the host at the engine's inputs (R108). Asserting RST takes effect at once: while it is asserted
RESP_VALID = 0 and READY = 0 (R260). An issued word takes the port, over a word that waits there; that can happen only while
RST is asserted, where R108 forbids the host to issue and gives no effect (DESIGN CHOICE, assumption log 23). -/
def drive (e : HostEvent) (s : State) : State :=
  match e with
  | .issue w => { s with cmd := w, cmdValid := true }
  | .wait => s
  | .assertReset => { hardReset s with rst := true }
  | .releaseReset => { s with rst := false }

/-- The host's turn: its next event, if it has one. "When IDLE [the engine] holds its state indefinitely and does nothing
until the next command" (R246). -/
def hostTurn (s : State) : State :=
  match s.host with
  | [] => s
  | e :: es => drive e { s with host := es }

/-- Whether the host's next event lands while the engine is busy. RST does at any time (R108, R261). A command word does
when none waits on CMD: it then stays there until READY (R265); behind a waiting one it does not, since the host holds CMD
stable until the word is accepted (R108). -/
def hostActs (s : State) : Bool :=
  match s.host with
  | [] => false
  | .issue _ :: _ => !s.cmdValid
  | .wait :: _ => false
  | .assertReset :: _ => true
  | .releaseReset :: _ => true

/-- The host lets the engine take a step: a `wait` of its own passes. -/
def hostPause (s : State) : State :=
  match s.host with
  | .wait :: es => { s with host := es }
  | _ => s

end Sys2Proof.Machine
end

