-- ==== Sys2Proof/Machine/Commands.lean ====
section
/-!
DEFINITION. The commands that change the message state: INIT (R101), UPDATE.0 to UPDATE.3 (R102) and FINAL (R103).
-/

namespace Sys2Proof.Machine

/-- INIT (R101): the IV, COUNT <- 0, FINALIZED <- 0, ERR <- 0. BUF and DIGEST are not written. -/
def execInit (s : State) : Host.Outcome State Fault Refusal :=
  .next (respond .ok 0 { s with chain := iv, count := 0, finalized := false, err := false })

/-- UPDATE.0 (R102, n = 0): the empty update. Legal before FINAL, rejected after it. -/
def execUpdate0 (s : State) : Host.Outcome State Fault Refusal := .next (absorb [] s)

/-- UPDATE.1 (R102, n = 1). -/
def execUpdate1 (m0 : Byte) (s : State) : Host.Outcome State Fault Refusal := .next (absorb [m0] s)

/-- UPDATE.2 (R102, n = 2): lane 0 is presented first (R73). -/
def execUpdate2 (m0 m1 : Byte) (s : State) : Host.Outcome State Fault Refusal := .next (absorb [m0, m1] s)

/-- UPDATE.3 (R102, n = 3): lane 0 is presented first (R73). -/
def execUpdate3 (m0 m1 m2 : Byte) (s : State) : Host.Outcome State Fault Refusal := .next (absorb [m0, m1, m2] s)

/-- FINAL (R103): "idempotent no-op" when already finalized, else PadAndFinish. Both answer OK. -/
def execFinal (s : State) : Host.Outcome State Fault Refusal :=
  .next (respond .ok 0 (if s.finalized then s else padAndFinish s))

end Sys2Proof.Machine
end

