-- ==== Sys2Proof/Syntax.lean ====
section
/-!
DEFINITION. The instructions: one constructor for every row of spec/opcode_table.json. Nine host commands of
format CMD32 (R70, R72) and four step micro-operations of format STEP6 (R78). Operand types are exactly the
encodings' fields, so an operand out of its field's range cannot be written (R74).
-/

namespace Sys2Proof

/-- The engine's instructions. The host issues the first nine as 32-bit command words. The last four are the
compression sequencer's own micro-operations, decoded from the 6-bit step counter; their operands are the
quarter `q` (STEP[3:2]) and the position `p` (STEP[1:0]) of R78. -/
inductive Instr where
  /-- INIT: start a new message (R101). -/
  | init
  /-- UPDATE.0: the empty update (R102, n = 0). -/
  | update0
  /-- UPDATE.1: absorb one message byte (R102, n = 1). -/
  | update1 (m0 : Byte)
  /-- UPDATE.2: absorb two message bytes, `m0` first (R102, n = 2). -/
  | update2 (m0 m1 : Byte)
  /-- UPDATE.3: absorb three message bytes, `m0` first (R102, n = 3). -/
  | update3 (m0 m1 m2 : Byte)
  /-- FINAL: pad, absorb the length, freeze the digest (R103). -/
  | final
  /-- RDIG: read digest byte `i` (R104). -/
  | rdig (i : BitVec 4)
  /-- RHEX: read hex character `j` of the digest (R105). -/
  | rhex (j : BitVec 5)
  /-- RSTAT: read the status register (R106). -/
  | rstat
  /-- FF: the round-0 step, STEP = 00 q p (R201). -/
  | ff (q p : BitVec 2)
  /-- GG: the round-1 step, STEP = 01 q p (R202). -/
  | gg (q p : BitVec 2)
  /-- HH: the round-2 step, STEP = 10 q p (R203). -/
  | hh (q p : BitVec 2)
  /-- II: the round-3 step, STEP = 11 q p (R204). -/
  | ii (q p : BitVec 2)
deriving DecidableEq, Repr

end Sys2Proof
end

