-- ==== Sys2Proof/Decode.lean ====
section
/-!
DEFINITION. The decoder of command words and of the step counter (R70 to R80), and after it the encoder. The
decoder is total: every one of the 2^32 command words is a legal command or is rejected under one of R79's three
grounds, and every 6-bit step index is a micro-operation.
-/

namespace Sys2Proof

/-! ## Fields -/

/-- OP, bits 31:28 of a command word (R70). -/
def Word.op (w : Word) : BitVec 4 := w.extractLsb' 28 4

/-- ARG, bits 27:24 of a command word (R70). -/
def Word.arg (w : Word) : BitVec 4 := w.extractLsb' 24 4

/-- DATA, bits 23:0 of a command word (R70). -/
def Word.data (w : Word) : BitVec 24 := w.extractLsb' 0 24

/-- Lane `k` of DATA, DATA[8k+7:8k], for k = 0, 1, 2 (R71). -/
def Word.lane (w : Word) (k : Nat) : Byte := w.extractLsb' (8 * k) 8

/-! ## Decoding -/

/-- Why a command word is illegal: the three grounds of R79. All three get the same response, E_ILLEGAL. -/
inductive IllegalReason where
  /-- R79 (a): OP is 0x0 or one of 0x7 .. 0xF. -/
  | unassignedOp
  /-- R79 (b): OP is assigned but a field that must be 0 (R75) is not. -/
  | reservedNotZero
  /-- R79 (c): OP is UPDATE and ARG > 3. -/
  | updateCount
deriving DecidableEq, Repr

/-- UPDATE's operands (R73): the byte count is ARG and the unused lanes must be 0. -/
def decodeUpdate (w : Word) : Except IllegalReason Instr :=
  match w.arg.toNat with
  | 0 => if w.data = 0 then .ok .update0 else .error .reservedNotZero
  | 1 => if w.data.extractLsb' 8 16 = 0 then .ok (.update1 (w.lane 0)) else .error .reservedNotZero
  | 2 => if w.data.extractLsb' 16 8 = 0 then .ok (.update2 (w.lane 0) (w.lane 1)) else .error .reservedNotZero
  | 3 => .ok (.update3 (w.lane 0) (w.lane 1) (w.lane 2))
  | _ => .error .updateCount

/-- A command whose ARG must be 0 (every one but UPDATE) and whose DATA bits above its operand, `high`, must
be 0 (R75). -/
def decodeZeroArg (w : Word) (high : Bool) (i : Instr) : Except IllegalReason Instr :=
  if w.arg = 0 && high then .ok i else .error .reservedNotZero

/-- The command decoder, `decode(w)` of R80: total on every 32-bit word. -/
def decodeCommand (w : Word) : Except IllegalReason Instr :=
  match w.op.toNat with
  | 1 => decodeZeroArg w (w.data == 0) .init
  | 2 => decodeUpdate w
  | 3 => decodeZeroArg w (w.data == 0) .final
  | 4 => decodeZeroArg w (w.data.extractLsb' 4 20 == 0) (.rdig (w.data.extractLsb' 0 4))
  | 5 => decodeZeroArg w (w.data.extractLsb' 5 19 == 0) (.rhex (w.data.extractLsb' 0 5))
  | 6 => decodeZeroArg w (w.data == 0) .rstat
  | _ => .error .unassignedOp

/-- The step decoder (R78): STEP[5:4] selects FF, GG, HH or II; q = STEP[3:2] and p = STEP[1:0]. Total. -/
def decodeStep (i : BitVec 6) : Instr :=
  let q := i.extractLsb' 2 2
  let p := i.extractLsb' 0 2
  match (i.extractLsb' 4 2).toNat with
  | 0 => .ff q p
  | 1 => .gg q p
  | 2 => .hh q p
  | _ => .ii q p

/-- The instruction this decoder reads from a word numbered as spec/opcode_table.json numbers it. The table has two
formats: a STEP6 row is 6 bits (one whole byte) and a CMD32 row is 32. A word with bits set above its format is
no encoding. -/
def decodeTableWord (nbits w : Nat) : Option Instr :=
  if nbits ≤ 8 then
    if w < 2 ^ 6 then some (decodeStep (BitVec.ofNat 6 w)) else none
  else if w < 2 ^ 32 then
    match decodeCommand (BitVec.ofNat 32 w) with
    | .ok i => some i
    | .error _ => none
  else none

/-! ## Encoding -/

/-- An instruction's encoding: a command word of format CMD32 (R70) or a step index of format STEP6 (R78). -/
inductive Encoding where
  | cmd32 (w : Word)
  | step6 (i : BitVec 6)
deriving DecidableEq, Repr

/-- The decoder over both formats. -/
def decode : Encoding → Except IllegalReason Instr
  | .cmd32 w => decodeCommand w
  | .step6 i => .ok (decodeStep i)

/-- A command word from its three fields, OP, ARG and DATA (R70). -/
def commandWord (op arg : BitVec 4) (data : BitVec 24) : Word := op ++ arg ++ data

/-- A step index from its three fields, r, q and p (R78). -/
def stepIndex (r q p : BitVec 2) : BitVec 6 := r ++ q ++ p

/-- The encoder, from the opcode map (R72), the lanes (R71, R73), the index fields (R74) and STEP6 (R78). -/
def encode : Instr → Encoding
  | .init => .cmd32 (commandWord 1 0 0)
  | .update0 => .cmd32 (commandWord 2 0 0)
  | .update1 m0 => .cmd32 (commandWord 2 1 (0#8 ++ 0#8 ++ m0))
  | .update2 m0 m1 => .cmd32 (commandWord 2 2 (0#8 ++ m1 ++ m0))
  | .update3 m0 m1 m2 => .cmd32 (commandWord 2 3 (m2 ++ m1 ++ m0))
  | .final => .cmd32 (commandWord 3 0 0)
  | .rdig i => .cmd32 (commandWord 4 0 (0#20 ++ i))
  | .rhex j => .cmd32 (commandWord 5 0 (0#19 ++ j))
  | .rstat => .cmd32 (commandWord 6 0 0)
  | .ff q p => .step6 (stepIndex 0 q p)
  | .gg q p => .step6 (stepIndex 1 q p)
  | .hh q p => .step6 (stepIndex 2 q p)
  | .ii q p => .step6 (stepIndex 3 q p)

/-- The command word of a host command; a micro-operation has none (R78). -/
def encodeCommand (i : Instr) : Option Word :=
  match encode i with
  | .cmd32 w => some w
  | .step6 _ => none

/-! ## The opcode table -/

/-- One row of spec/opcode_table.json: its mnemonic, and the match and mask of its format. -/
structure TableRow where
  mnemonic : String
  width : Nat
  pattern : Nat
  mask : Nat
deriving DecidableEq, Repr

/-- The rows of format CMD32 (R72). -/
def commandRows : List TableRow :=
  [⟨"INIT", 32, 0x10000000, 0xFFFFFFFF⟩,
   ⟨"UPDATE.0", 32, 0x20000000, 0xFFFFFFFF⟩,
   ⟨"UPDATE.1", 32, 0x21000000, 0xFFFFFF00⟩,
   ⟨"UPDATE.2", 32, 0x22000000, 0xFFFF0000⟩,
   ⟨"UPDATE.3", 32, 0x23000000, 0xFF000000⟩,
   ⟨"FINAL", 32, 0x30000000, 0xFFFFFFFF⟩,
   ⟨"RDIG", 32, 0x40000000, 0xFFFFFFF0⟩,
   ⟨"RHEX", 32, 0x50000000, 0xFFFFFFE0⟩,
   ⟨"RSTAT", 32, 0x60000000, 0xFFFFFFFF⟩]

/-- The rows of format STEP6 (R78). -/
def stepRows : List TableRow :=
  [⟨"FF", 6, 0x00, 0x30⟩,
   ⟨"GG", 6, 0x10, 0x30⟩,
   ⟨"HH", 6, 0x20, 0x30⟩,
   ⟨"II", 6, 0x30, 0x30⟩]

/-- The row of the table that an instruction is. -/
def Instr.row : Instr → TableRow
  | .init => ⟨"INIT", 32, 0x10000000, 0xFFFFFFFF⟩
  | .update0 => ⟨"UPDATE.0", 32, 0x20000000, 0xFFFFFFFF⟩
  | .update1 _ => ⟨"UPDATE.1", 32, 0x21000000, 0xFFFFFF00⟩
  | .update2 _ _ => ⟨"UPDATE.2", 32, 0x22000000, 0xFFFF0000⟩
  | .update3 _ _ _ => ⟨"UPDATE.3", 32, 0x23000000, 0xFF000000⟩
  | .final => ⟨"FINAL", 32, 0x30000000, 0xFFFFFFFF⟩
  | .rdig _ => ⟨"RDIG", 32, 0x40000000, 0xFFFFFFF0⟩
  | .rhex _ => ⟨"RHEX", 32, 0x50000000, 0xFFFFFFE0⟩
  | .rstat => ⟨"RSTAT", 32, 0x60000000, 0xFFFFFFFF⟩
  | .ff _ _ => ⟨"FF", 6, 0x00, 0x30⟩
  | .gg _ _ => ⟨"GG", 6, 0x10, 0x30⟩
  | .hh _ _ => ⟨"HH", 6, 0x20, 0x30⟩
  | .ii _ _ => ⟨"II", 6, 0x30, 0x30⟩

/-- The bits of an encoding, as a number. -/
def Encoding.bits : Encoding → Nat
  | .cmd32 w => w.toNat
  | .step6 i => i.toNat

/-- A number falls under a row when its masked bits are the row's pattern. -/
def TableRow.covers (r : TableRow) (w : Nat) : Bool := w &&& r.mask == r.pattern

end Sys2Proof
end

