-- ==== Sys2Proof/Machine/Compress.lean ====
section
/-!
DEFINITION. The compression sequencer's micro-operations FF, GG, HH and II (R201 to R204). Each is the step body of R207
with its round's mixing function, at the step index that its fields make (R78).
-/

namespace Sys2Proof.Machine

/-- FF (R201): the round-0 step, with F. -/
def execFF (q p : BitVec 2) (s : State) : Host.Outcome State Fault Refusal := .next (microOp mixF (stepIndex 0 q p) s)

/-- GG (R202): the round-1 step, with G. -/
def execGG (q p : BitVec 2) (s : State) : Host.Outcome State Fault Refusal := .next (microOp mixG (stepIndex 1 q p) s)

/-- HH (R203): the round-2 step, with H. -/
def execHH (q p : BitVec 2) (s : State) : Host.Outcome State Fault Refusal := .next (microOp mixH (stepIndex 2 q p) s)

/-- II (R204): the round-3 step, with I. Step 63 (q = p = 3) is followed by the feed-forward (R207, R210). -/
def execII (q p : BitVec 2) (s : State) : Host.Outcome State Fault Refusal := .next (microOp mixI (stepIndex 3 q p) s)

end Sys2Proof.Machine
end

