-- ==== Sys2Proof/Machine/Reads.lean ====
section
/-!
DEFINITION. The commands that read: RDIG (R104), RHEX (R105) and RSTAT (R106).
-/

namespace Sys2Proof.Machine

/-- RDIG i (R104): DIGEST[i], or E_NOT_FINAL while FINALIZED = 0. -/
def execRdig (i : BitVec 4) (s : State) : Host.Outcome State Fault Refusal :=
  .next (readDigest (digestByte s.digest i) s)

/-- RHEX j (R105): the j-th lowercase hex character of the digest, or E_NOT_FINAL while FINALIZED = 0. -/
def execRhex (j : BitVec 5) (s : State) : Host.Outcome State Fault Refusal :=
  .next (readDigest (hexChar (digestNibble s.digest j)) s)

/-- RSTAT (R106): the STATUS register. Legal in every state, with no side effect. -/
def execRstat (s : State) : Host.Outcome State Fault Refusal :=
  .next (respond .ok (statusReg s) s)

end Sys2Proof.Machine
end

