-- ==== Sys2Proof/Machine/Dispatch.lean ====
section
/-!
DEFINITION. The dispatch: one arm per constructor of `Instr`, each a direct call of its meaning.
-/

namespace Sys2Proof.Machine

def exec (i : Instr) (s : State) : Host.Outcome State Fault Refusal :=
  match i with
  -- the host commands (40_commands.md)
  | .init => Sys2Proof.Machine.execInit s
  | .update0 => Sys2Proof.Machine.execUpdate0 s
  | .update1 m0 => Sys2Proof.Machine.execUpdate1 m0 s
  | .update2 m0 m1 => Sys2Proof.Machine.execUpdate2 m0 m1 s
  | .update3 m0 m1 m2 => Sys2Proof.Machine.execUpdate3 m0 m1 m2 s
  | .final => Sys2Proof.Machine.execFinal s
  | .rdig k => Sys2Proof.Machine.execRdig k s
  | .rhex j => Sys2Proof.Machine.execRhex j s
  | .rstat => Sys2Proof.Machine.execRstat s
  -- the step micro-operations (43_compression.md)
  | .ff q p => Sys2Proof.Machine.execFF q p s
  | .gg q p => Sys2Proof.Machine.execGG q p s
  | .hh q p => Sys2Proof.Machine.execHH q p s
  | .ii q p => Sys2Proof.Machine.execII q p s

end Sys2Proof.Machine
end

