-- ==== Sys2Proof/Machine/Sequencer.lean ====
section
/-!
DEFINITION. The sequencer between one state change and the next (R31), and the engine's cycle: what moves in a state. The
cycle is one definition for both of the specification's levels (R11); the levels differ only in what accepting a command
starts.
-/

namespace Sys2Proof.Machine

/-- One AppendByte, up to the start of the transform that the byte may trigger (R142, R143, R209). -/
def presentByte (v : Byte) (s : State) : State :=
  if fillIndex s.count = 63 then startTransform (storeByte v s) else storeByte v s

/-- One sequencer step of APPEND or PAD: present the next byte, or end the command when none is left. -/
def presentNext (finish : State → State) (s : State) : State :=
  match s.pending with
  | [] => finish s
  | v :: vs => presentByte v { s with pending := vs }

/-- The end of an UPDATE: its response (R102). -/
def finishUpdate (s : State) : State := respond .ok 0 s

/-- The end of a FINAL: the digest is frozen (R152, R153), then the response (R103). -/
def finishFinal (s : State) : State := respond .ok 0 (freezeDigest s)

/-- The start of an UPDATE at the micro-sequence level: its check, then SEQ <- APPEND with its bytes to present (R102). -/
def beginUpdate (bytes : List Byte) (s : State) : State :=
  if s.finalized then raise .eFinalized s else { s with seq := .append, pending := bytes }

/-- The start of a FINAL at the micro-sequence level: its check, then SEQ <- PAD with the padding and the captured length
to present (R103, R148). -/
def beginFinal (s : State) : State :=
  if s.finalized then respond .ok 0 s else { s with seq := .pad, pending := padBytes s.count }

/-- A busy engine beside its host: an event of the host lands if one does, else the engine takes its step `go`. -/
def besideHost (go : State → Host.Outcome State Fault Refusal) (s : State) : Host.Outcome State Fault Refusal :=
  if hostActs s then .next (hostTurn s) else go (hostPause s)

/-- What moves in a state. A second host is refused (R62, R268). While RST is asserted the engine holds its reset state
and accepts nothing (R260, R261); the host's next event lands, whatever it is, and a word issued then waits for the release
(DESIGN CHOICE, assumption log 23). When IDLE, a valid command word is accepted and decoded (R100): a legal one is started by
`start`, an illegal one gets E_ILLEGAL (R107, R232); with no command it is the host's turn (R246). A busy engine takes one
step of its sequencer and no command (R32), unless an event of the host lands: `run` executes the micro-operation that
STEP decodes to. -/
def cycle (start run : Instr → State → Host.Outcome State Fault Refusal) (s : State) : Host.Outcome State Fault Refusal :=
  if s.secondHost then .refused .twoHosts
  else if s.rst then .next (hostTurn (hardReset s))
  else
    match s.seq with
    | .idle =>
      if s.cmdValid then
        match decodeCommand s.cmd with
        | .ok i => start i (accept s)
        | .error _ => .next (raise .eIllegal (accept s))
      else .next (hostTurn s)
    | .append => besideHost (fun u => .next (presentNext finishUpdate u)) s
    | .pad => besideHost (fun u => .next (presentNext finishFinal u)) s
    | .compress _ => besideHost (fun u => run (decodeStep u.stepCtr) u) s

/-- The state in which `cycle` runs the instruction of a table word next: a CMD32 word waits on CMD of an idle engine, a
STEP6 word stands in STEP of an engine that compresses, with no event of the host before it (R32, R78). -/
def placeWord (s : State) (nbits w : Nat) : State :=
  if nbits ≤ 8 then
    { s with
      secondHost := false, rst := false, host := [], seq := .compress s.seq.starter, stepCtr := BitVec.ofNat 6 w }
  else
    { s with secondHost := false, rst := false, seq := .idle, cmd := BitVec.ofNat 32 w, cmdValid := true }

end Sys2Proof.Machine
end

