-- ==== Sys2Proof/Machine/Step.lean ====
section
/-!
DEFINITION. The machine's step, at the command level (R11 (1)): one accepted command runs to completion, response
included, in one step (R60, R100). In a state that stands inside a command the step is one step of the sequencer.
-/

namespace Sys2Proof.Machine

/-- One step of the machine. -/
def step (s : State) : Host.Outcome State Fault Refusal := cycle exec exec s

/-- `s` with an instruction placed where `step` takes its next one from. Assumption log 10. -/
def State.withFetchWord (s : State) (nbits w : Nat) : State := placeWord s nbits w

end Sys2Proof.Machine
end

