-- ==== Sys2Proof/AsmSyntax.lean ====
section
/-!
DEFINITION. The lines of the specification's assembler (R81) as data. Here operands are plain numbers, as a
programmer writes them, so a line can be ill-formed; WellFormed.lean says which are.
-/

namespace Sys2Proof

/-- One line of assembly (R81): a command with its operands, or a raw command word. -/
inductive AsmLine where
  | init
  /-- UPDATE with its byte operands in message order. -/
  | update (bytes : List Nat)
  | final
  | rdig (i : Nat)
  | rhex (j : Nat)
  | rstat
  /-- `.word w`: a raw command word, legal or not. -/
  | word (w : Nat)
deriving DecidableEq, Repr

end Sys2Proof
end

