-- ==== Sys2Proof/Machine/Run.lean ====
section
/-!
DEFINITION. Runs (R270): a finite sequence of command words issued from a start state, the response words it shows, and
the host's pseudo-instructions (R82 to R85) that are such sequences.
-/

namespace Sys2Proof

/-- The message bytes that an UPDATE carries, in lane order; no other instruction carries any (R73). -/
def Instr.messageBytes : Instr → List Byte
  | .update1 m0 => [m0]
  | .update2 m0 m1 => [m0, m1]
  | .update3 m0 m1 m2 => [m0, m1, m2]
  | .init => []
  | .update0 => []
  | .final => []
  | .rdig _ => []
  | .rhex _ => []
  | .rstat => []
  | .ff _ _ => []
  | .gg _ _ => []
  | .hh _ _ => []
  | .ii _ _ => []

/-- The instruction is one of UPDATE.0 to UPDATE.3 (R102). -/
def Instr.isUpdate : Instr → Bool
  | .update0 => true
  | .update1 _ => true
  | .update2 _ _ => true
  | .update3 _ _ _ => true
  | .init => false
  | .final => false
  | .rdig _ => false
  | .rhex _ => false
  | .rstat => false
  | .ff _ _ => false
  | .gg _ _ => false
  | .hh _ _ => false
  | .ii _ _ => false

end Sys2Proof

namespace Sys2Proof.Machine

/-- The state in which the host holds `w` on CMD with CMD_VALID = 1 (R32, R108). A run's word takes the port also from a word
that already waits there, which then never runs (DESIGN CHOICE, assumption log 24). -/
def State.issue (w : Word) (s : State) : State := { s with cmd := w, cmdValid := true }

/-- One command issued and completed: the state with its response, or none where the command was not accepted and answered
in one step (the engine was busy, in reset, or refused). -/
def runCommand (w : Word) (s : State) : Option State :=
  match step (s.issue w) with
  | .next t => if t.respValid && !t.cmdValid then some t else none
  | .fault _ => none
  | .refused _ => none

/-- A run (R270): the response words, one per command in order, and the state it ends in. -/
def runCommands : List Word → State → Option (List Word × State)
  | [], s => some ([], s)
  | w :: ws, s => (runCommand w s).bind fun t => (runCommands ws t).map fun r => (t.resp :: r.1, r.2)

/-- The response words of a run. -/
def responses (ws : List Word) (s : State) : Option (List Word) := (runCommands ws s).map Prod.fst

/-- What a run shows at its end besides the responses (R270): STATUS, and DIGEST when FINALIZED = 1. -/
structure Observation where
  responses : List Word
  status : Byte
  digest : Option (Vector Byte 16)
deriving DecidableEq, Repr

/-- The observation of a run (R270). -/
def observeRun (ws : List Word) (s : State) : Option Observation :=
  (runCommands ws s).map fun r => ⟨r.1, statusReg r.2, if r.2.finalized then some r.2.digest else none⟩

/-! ## Command words of the host -/

/-- The word of an UPDATE that carries the bytes of one group (R102). It has a word for at most three bytes. -/
def updateInstr : List Byte → Option Instr
  | [] => some .update0
  | [m0] => some (.update1 m0)
  | [m0, m1] => some (.update2 m0 m1)
  | [m0, m1, m2] => some (.update3 m0 m1 m2)
  | _ :: _ :: _ :: _ :: _ => none

/-- The byte that a host sends for a signed byte `v` in -128..127: the pattern v mod 256 (R73). -/
def signedByte (v : Int) : Byte := BitVec.ofInt 8 v

/-- UPDATE_BYTES of a nonempty rest: three bytes a command while there are three, then one command with the last one or
two (R82). -/
def updateGroups : List Byte → List Instr
  | [] => []
  | [m0] => [.update1 m0]
  | [m0, m1] => [.update2 m0 m1]
  | m0 :: m1 :: m2 :: rest => .update3 m0 m1 m2 :: updateGroups rest

/-- UPDATE_BYTES m (R82). For the empty string it is one empty UPDATE, so that misuse after FINAL is still reported. -/
def updateBytes (m : List Byte) : List Instr :=
  match m with
  | [] => [.update0]
  | b :: bs => updateGroups (b :: bs)

/-- DIGEST_BYTES (R83): RDIG 0 .. RDIG 15. -/
def digestBytes : List Instr := (List.range 16).map fun i => .rdig (BitVec.ofNat 4 i)

/-- HEXDIGEST (R84): RHEX 0 .. RHEX 31. -/
def hexDigest : List Instr := (List.range 32).map fun j => .rhex (BitVec.ofNat 5 j)

/-- HASH m (R85): INIT, UPDATE_BYTES m, FINAL, HEXDIGEST. -/
def hash (m : List Byte) : List Instr := [.init] ++ updateBytes m ++ [.final] ++ hexDigest

/-- The command words of a host program. A micro-operation has none (R78). -/
def words (p : List Instr) : List Word := p.filterMap encodeCommand

/-- DIGEST_BYTES' result (R83): the RDATA bytes in order if every response is OK, none ("not finalized") if any is not. -/
def digestBytesResult (rs : List Word) : Option (List Byte) :=
  if rs.all (respStatus · == Status.ok.code) then some (rs.map respData) else none

/-- HEXDIGEST's result (R84): the RDATA bytes read as ASCII characters if every response is OK, the empty string if not. -/
def hexDigestResult (rs : List Word) : List Byte :=
  if rs.all (respStatus · == Status.ok.code) then rs.map respData else []

/-- The result of HASH m (R85): HEXDIGEST's result over the last 32 responses. -/
def hashResult (m : List Byte) (s : State) : Option (List Byte) :=
  (responses (words (hash m)) s).map fun rs => hexDigestResult (rs.drop ((hash m).length - 32))

/-- The message that a sequence of UPDATE commands presents (R13). -/
def messageOf (us : List Instr) : List Byte := us.flatMap Instr.messageBytes

end Sys2Proof.Machine
end

