-- ==== Sys2Proof/WellFormed.lean ====
section
/-!
DEFINITION. Which terms are well formed. An `Instr` has its operand ranges in its types, so the only check on it
is R78's: the host can issue a command, never a step micro-operation. A line of assembly has the range checks of
R81: "An operand out of range is an assembly error, never a truncation."
-/

namespace Sys2Proof

/-- The instruction is a host command, of format CMD32 (R72). "The host cannot issue a STEP6 word" (R78). -/
def Instr.isCommand : Instr → Bool
  | .init => true
  | .update0 => true
  | .update1 _ => true
  | .update2 _ _ => true
  | .update3 _ _ _ => true
  | .final => true
  | .rdig _ => true
  | .rhex _ => true
  | .rstat => true
  | .ff _ _ => false
  | .gg _ _ => false
  | .hh _ _ => false
  | .ii _ _ => false

/-- A host program, as instructions, is well formed when the host can issue every one of them (R78). -/
def Instr.programWf (p : List Instr) : Bool :=
  p.all Instr.isCommand

/-- A line of assembly is well formed when every operand is in its range (R81): at most three byte operands, each
0..255; `i` in 0..15; `j` in 0..31; a raw word below 2^32. -/
def AsmLine.wf : AsmLine → Bool
  | .init => true
  | .update bytes => bytes.length ≤ 3 && bytes.all (· < 256)
  | .final => true
  | .rdig i => i < 16
  | .rhex j => j < 32
  | .rstat => true
  | .word w => w < 2 ^ 32

end Sys2Proof
end

