-- ==== Sys2Proof/Machine/Assembler.lean ====
section
/-!
DEFINITION. The specification's assembler (R81): a line of text to tokens, to a line of assembly, to a command word. Text is
a list of characters. What R81 leaves to the reader about spelling is in assumption log 14.
-/

namespace Sys2Proof.Machine

/-- The command word of a well-formed line (R81, from R70); an ill-formed one has none, "never a truncation". -/
def assembleLine (l : AsmLine) : Option Word :=
  if l.wf then
    match l with
    | .init => encodeCommand .init
    | .update bytes => (updateInstr (bytes.map (BitVec.ofNat 8))).bind encodeCommand
    | .final => encodeCommand .final
    | .rdig i => encodeCommand (.rdig (BitVec.ofNat 4 i))
    | .rhex j => encodeCommand (.rhex (BitVec.ofNat 5 j))
    | .rstat => encodeCommand .rstat
    | .word w => some (BitVec.ofNat 32 w)
  else none

/-- A token of a line: a name, a number, a quoted character's code, or a comma. -/
inductive AsmToken where
  | name (cs : List Char)
  | num (n : Nat)
  | chr (n : Nat)
  | comma
deriving DecidableEq, Repr

/-- The value of a digit of the given base, 10 or 16; hex letters may be of either case. -/
def digitValue (base : Nat) (c : Char) : Option Nat :=
  let n := c.toNat
  if 48 ≤ n ∧ n ≤ 57 then some (n - 48)
  else if base = 16 ∧ 97 ≤ n ∧ n ≤ 102 then some (n - 87)
  else if base = 16 ∧ 65 ≤ n ∧ n ≤ 70 then some (n - 55)
  else none

/-- A digit string's number, most significant digit first; `acc` is the value of the digits before it. -/
def digits (base : Nat) : Nat → List Char → Option Nat
  | acc, [] => some acc
  | acc, c :: cs => (digitValue base c).bind fun d => digits base (base * acc + d) cs

/-- The token of a run of characters: a number if it begins with a digit (hex after `0x`, else decimal), else a name. -/
def wordToken : List Char → Option AsmToken
  | '0' :: 'x' :: c :: cs => (digits 16 0 (c :: cs)).map .num
  | c :: cs => if (digitValue 10 c).isSome then (digits 10 0 (c :: cs)).map .num else some (.name (c :: cs))
  | [] => none

/-- The token of the characters gathered so far, in reverse; none gathered is no token. -/
def flush (acc : List Char) : Option (List AsmToken) :=
  match acc with
  | [] => some []
  | c :: cs => (wordToken (c :: cs).reverse).map fun t => [t]

/-- The tokens of a line (R81). `;` starts a comment; a quoted character is its ASCII code. A quoted character ends what
stands before it, so it needs no blank after the mnemonic: UPDATE'a' is UPDATE 'a' (DESIGN CHOICE, assumption log 14). -/
def tokens : List Char → List Char → Option (List AsmToken)
  | [], acc => flush acc
  | '\'' :: x :: '\'' :: rest, acc =>
    if x.toNat < 128 then
      (flush acc).bind fun ts => (tokens rest []).map fun us => ts ++ .chr x.toNat :: us
    else none
  | c :: cs, acc =>
    if c = ';' then flush acc
    else if c = '\'' then none
    else if c = ' ' ∨ c = '\t' then (flush acc).bind fun ts => (tokens cs []).map fun us => ts ++ us
    else if c = ',' then (flush acc).bind fun ts => (tokens cs []).map fun us => ts ++ .comma :: us
    else tokens cs (c :: acc)

/-- A byte operand's number (R81): a number or a quoted character. -/
def byteOperand : AsmToken → Option Nat
  | .num n => some n
  | .chr n => some n
  | .name _ => none
  | .comma => none

/-- The byte operands of an UPDATE line, separated by commas. -/
def byteOperands : List AsmToken → Option (List Nat)
  | [] => some []
  | [t] => (byteOperand t).map fun n => [n]
  | t :: .comma :: u :: rest => (byteOperand t).bind fun n => (byteOperands (u :: rest)).map fun ns => n :: ns
  | _ :: _ => none

/-- A line of assembly from its tokens; a blank or comment line is `some none`. The lines are those of R81's list. The name
of a pseudo-instruction (UPDATE_BYTES, DIGEST_BYTES, HEXDIGEST, HASH; R82 to R85) is no line of text here; Run.lean expands
it to instructions (DESIGN CHOICE, assumption log 14). -/
def parseTokens : List AsmToken → Option (Option AsmLine)
  | [] => some none
  | [.name ['I', 'N', 'I', 'T']] => some (some .init)
  | .name ['U', 'P', 'D', 'A', 'T', 'E'] :: ops => (byteOperands ops).map fun ns => some (.update ns)
  | [.name ['F', 'I', 'N', 'A', 'L']] => some (some .final)
  | [.name ['R', 'D', 'I', 'G'], .num i] => some (some (.rdig i))
  | [.name ['R', 'H', 'E', 'X'], .num j] => some (some (.rhex j))
  | [.name ['R', 'S', 'T', 'A', 'T']] => some (some .rstat)
  | [.name ['.', 'w', 'o', 'r', 'd'], .num w] => some (some (.word w))
  | _ => none

/-- A line of text to its command word: `some none` for a blank line, none for an error. -/
def assembleText (line : List Char) : Option (Option Word) :=
  (tokens line []).bind fun ts => (parseTokens ts).bind fun l =>
    match l with
    | none => some none
    | some l => (assembleLine l).map some

/-- A program's text, line by line, to its command words; one bad line is an error of the whole. -/
def assembleProgram : List (List Char) → Option (List Word)
  | [] => some []
  | l :: ls => (assembleText l).bind fun w => (assembleProgram ls).map fun ws => w.toList ++ ws

end Sys2Proof.Machine
end

