-- ==== Sys2Proof/Machine/Micro.lean ====
section
/-!
DEFINITION. The machine at the micro-sequence level (R11 (2)): accepting an UPDATE or a FINAL only starts it, and every
byte append, compression step and the end of the command is a step of its own, in the order of 41_buffer_padding.md and
43_compression.md. It has the same states as the command level, and between commands both levels agree.
-/

namespace Sys2Proof.Machine

/-- What accepting a command does at the micro-sequence level. INIT and the reads have no sequence: they run at once. -/
def beginCommand (i : Instr) (s : State) : Host.Outcome State Fault Refusal :=
  match i with
  | .update0 => .next (beginUpdate [] s)
  | .update1 m0 => .next (beginUpdate [m0] s)
  | .update2 m0 m1 => .next (beginUpdate [m0, m1] s)
  | .update3 m0 m1 m2 => .next (beginUpdate [m0, m1, m2] s)
  | .final => .next (beginFinal s)
  | .init => exec .init s
  | .rdig k => exec (.rdig k) s
  | .rhex j => exec (.rhex j) s
  | .rstat => exec .rstat s
  | .ff q p => exec (.ff q p) s
  | .gg q p => exec (.gg q p) s
  | .hh q p => exec (.hh q p) s
  | .ii q p => exec (.ii q p) s

/-- One step at the micro-sequence level. -/
def microStep (s : State) : Host.Outcome State Fault Refusal := cycle beginCommand exec s

/-- `n` micro-steps, stopping at the first state that is no next state. -/
def runMicro : Nat → State → Host.Outcome State Fault Refusal
  | 0, s => .next s
  | n + 1, s =>
    match microStep s with
    | .next t => runMicro n t
    | .fault r => .fault r
    | .refused r => .refused r

end Sys2Proof.Machine
end

