-- ==== Sys2Proof/Machine/Reference.lean ====
section
/-!
DEFINITION. The digest as a function of the message, with no machine in it: the padded message of R151 cut into blocks, and
each block compressed by R211's 64 steps. Claims about runs compare the engine with it (R3, R13). The step is written
twice: in the role view of R207 and in the fixed-slot view of R208.
-/

namespace Sys2Proof.Machine

/-- Working words after the steps from `i` on, `n` of them, in the role view (R207). -/
def roundsFrom (x : Vector Word 16) : Nat → Nat → Quad → Quad
  | 0, _, w => w
  | n + 1, i, w =>
    roundsFrom x n (i + 1) (stepBody (funSel (roundOf (BitVec.ofNat 6 i))) x (BitVec.ofNat 6 i) w)

/-- The compression of one block of sixteen words: 64 steps, then the feed-forward (R210, R211). -/
def compressWords (chain : Quad) (x : Vector Word 16) : Quad := addQuad chain (roundsFrom x 64 0 chain)

/-- Step `i` in the fixed-slot view (R208): one slot is updated, in the cycle A', D', C', B' for p = 0, 1, 2, 3. -/
def slotStep (f : Word → Word → Word → Word) (x : Vector Word 16) (i : BitVec 6) (w : Quad) : Quad :=
  let k := add32 (x[(msgIndex i).toNat]'(msgIndex i).isLt) (krom i)
  let s := srom (roundOf i) (posOf i)
  match (posOf i).toNat with
  | 0 => { w with a := add32 w.b (rotl32 (add32 (add32 w.a (f w.b w.c w.d)) k) s) }
  | 1 => { w with d := add32 w.a (rotl32 (add32 (add32 w.d (f w.a w.b w.c)) k) s) }
  | 2 => { w with c := add32 w.d (rotl32 (add32 (add32 w.c (f w.d w.a w.b)) k) s) }
  | _ => { w with b := add32 w.c (rotl32 (add32 (add32 w.b (f w.c w.d w.a)) k) s) }

/-- Slots after the steps from `i` on, `n` of them, in the fixed-slot view (R208). -/
def slotRoundsFrom (x : Vector Word 16) : Nat → Nat → Quad → Quad
  | 0, _, w => w
  | n + 1, i, w =>
    slotRoundsFrom x n (i + 1) (slotStep (funSel (roundOf (BitVec.ofNat 6 i))) x (BitVec.ofNat 6 i) w)

/-- Word `j` of a block given as bytes, little-endian (R53, R54). -/
def blockWord (block : List Byte) (j : Nat) : Word :=
  wordLE (block.getD (4 * j) 0) (block.getD (4 * j + 1) 0) (block.getD (4 * j + 2) 0) (block.getD (4 * j + 3) 0)

/-- The sixteen words of a block given as bytes. -/
def blockWords (block : List Byte) : Vector Word 16 := Vector.ofFn fun j => blockWord block j.val

/-- The first `n` blocks of 64 bytes of a byte string, in order. -/
def blocksOf : Nat → List Byte → List (List Byte)
  | 0, _ => []
  | n + 1, bytes => bytes.take 64 :: blocksOf n (bytes.drop 64)

/-- The compression of one block given as bytes. -/
def absorbBlock (chain : Quad) (block : List Byte) : Quad := compressWords chain (blockWords block)

/-- The chaining state after the first `n` blocks of a byte string, each compressed once, in order (R151). -/
def absorbBlocks (n : Nat) (bytes : List Byte) (chain : Quad) : Quad := (blocksOf n bytes).foldl absorbBlock chain

/-- The number of zero bytes after the 0x80 for a message of `len` bytes: the least z with len + 1 + z = 56 modulo 64
(R149). -/
def zeroPad (len : Nat) : Nat := (119 - len % 64) % 64

/-- The padded message (R151): the message, 0x80, the zero bytes, the little-endian bit length modulo 2^64 (R23). -/
def paddedMessage (m : List Byte) : List Byte :=
  m ++ [0x80] ++ List.replicate (zeroPad m.length) 0 ++ lengthBytes (BitVec.ofNat 64 (8 * m.length))

/-- The digest of a message (R13, R152). -/
def md5 (m : List Byte) : Vector Byte 16 :=
  encodeDigest (absorbBlocks ((paddedMessage m).length / 64) (paddedMessage m) iv)

/-- The 32 lowercase hex characters of a digest, high nibble of each byte first (R188). -/
def hexString (d : Vector Byte 16) : List Byte :=
  (List.range 32).map fun j => hexChar (digestNibble d (BitVec.ofNat 5 j))

/-! ## The printed schedule -/

/-- One row of the 64-step schedule as R213 prints it: STEP, round, position, g(i), S[r][p], K[i]. -/
structure ScheduleRow where
  stepBits : BitVec 6
  round : BitVec 2
  pos : BitVec 2
  msg : BitVec 4
  amount : BitVec 5
  constant : Word
deriving DecidableEq, Repr

/-- Rows 0..15 of the table of R213 (FF). -/
def scheduleFF : List ScheduleRow :=
  [⟨0b000000, 0, 0, 0, 7, 0xD76AA478⟩, ⟨0b000001, 0, 1, 1, 12, 0xE8C7B756⟩,
   ⟨0b000010, 0, 2, 2, 17, 0x242070DB⟩, ⟨0b000011, 0, 3, 3, 22, 0xC1BDCEEE⟩,
   ⟨0b000100, 0, 0, 4, 7, 0xF57C0FAF⟩, ⟨0b000101, 0, 1, 5, 12, 0x4787C62A⟩,
   ⟨0b000110, 0, 2, 6, 17, 0xA8304613⟩, ⟨0b000111, 0, 3, 7, 22, 0xFD469501⟩,
   ⟨0b001000, 0, 0, 8, 7, 0x698098D8⟩, ⟨0b001001, 0, 1, 9, 12, 0x8B44F7AF⟩,
   ⟨0b001010, 0, 2, 10, 17, 0xFFFF5BB1⟩, ⟨0b001011, 0, 3, 11, 22, 0x895CD7BE⟩,
   ⟨0b001100, 0, 0, 12, 7, 0x6B901122⟩, ⟨0b001101, 0, 1, 13, 12, 0xFD987193⟩,
   ⟨0b001110, 0, 2, 14, 17, 0xA679438E⟩, ⟨0b001111, 0, 3, 15, 22, 0x49B40821⟩]

/-- Rows 16..31 of the table of R213 (GG). -/
def scheduleGG : List ScheduleRow :=
  [⟨0b010000, 1, 0, 1, 5, 0xF61E2562⟩, ⟨0b010001, 1, 1, 6, 9, 0xC040B340⟩,
   ⟨0b010010, 1, 2, 11, 14, 0x265E5A51⟩, ⟨0b010011, 1, 3, 0, 20, 0xE9B6C7AA⟩,
   ⟨0b010100, 1, 0, 5, 5, 0xD62F105D⟩, ⟨0b010101, 1, 1, 10, 9, 0x02441453⟩,
   ⟨0b010110, 1, 2, 15, 14, 0xD8A1E681⟩, ⟨0b010111, 1, 3, 4, 20, 0xE7D3FBC8⟩,
   ⟨0b011000, 1, 0, 9, 5, 0x21E1CDE6⟩, ⟨0b011001, 1, 1, 14, 9, 0xC33707D6⟩,
   ⟨0b011010, 1, 2, 3, 14, 0xF4D50D87⟩, ⟨0b011011, 1, 3, 8, 20, 0x455A14ED⟩,
   ⟨0b011100, 1, 0, 13, 5, 0xA9E3E905⟩, ⟨0b011101, 1, 1, 2, 9, 0xFCEFA3F8⟩,
   ⟨0b011110, 1, 2, 7, 14, 0x676F02D9⟩, ⟨0b011111, 1, 3, 12, 20, 0x8D2A4C8A⟩]

/-- Rows 32..47 of the table of R213 (HH). -/
def scheduleHH : List ScheduleRow :=
  [⟨0b100000, 2, 0, 5, 4, 0xFFFA3942⟩, ⟨0b100001, 2, 1, 8, 11, 0x8771F681⟩,
   ⟨0b100010, 2, 2, 11, 16, 0x6D9D6122⟩, ⟨0b100011, 2, 3, 14, 23, 0xFDE5380C⟩,
   ⟨0b100100, 2, 0, 1, 4, 0xA4BEEA44⟩, ⟨0b100101, 2, 1, 4, 11, 0x4BDECFA9⟩,
   ⟨0b100110, 2, 2, 7, 16, 0xF6BB4B60⟩, ⟨0b100111, 2, 3, 10, 23, 0xBEBFBC70⟩,
   ⟨0b101000, 2, 0, 13, 4, 0x289B7EC6⟩, ⟨0b101001, 2, 1, 0, 11, 0xEAA127FA⟩,
   ⟨0b101010, 2, 2, 3, 16, 0xD4EF3085⟩, ⟨0b101011, 2, 3, 6, 23, 0x04881D05⟩,
   ⟨0b101100, 2, 0, 9, 4, 0xD9D4D039⟩, ⟨0b101101, 2, 1, 12, 11, 0xE6DB99E5⟩,
   ⟨0b101110, 2, 2, 15, 16, 0x1FA27CF8⟩, ⟨0b101111, 2, 3, 2, 23, 0xC4AC5665⟩]

/-- Rows 48..63 of the table of R213 (II). -/
def scheduleII : List ScheduleRow :=
  [⟨0b110000, 3, 0, 0, 6, 0xF4292244⟩, ⟨0b110001, 3, 1, 7, 10, 0x432AFF97⟩,
   ⟨0b110010, 3, 2, 14, 15, 0xAB9423A7⟩, ⟨0b110011, 3, 3, 5, 21, 0xFC93A039⟩,
   ⟨0b110100, 3, 0, 12, 6, 0x655B59C3⟩, ⟨0b110101, 3, 1, 3, 10, 0x8F0CCC92⟩,
   ⟨0b110110, 3, 2, 10, 15, 0xFFEFF47D⟩, ⟨0b110111, 3, 3, 1, 21, 0x85845DD1⟩,
   ⟨0b111000, 3, 0, 8, 6, 0x6FA87E4F⟩, ⟨0b111001, 3, 1, 15, 10, 0xFE2CE6E0⟩,
   ⟨0b111010, 3, 2, 6, 15, 0xA3014314⟩, ⟨0b111011, 3, 3, 13, 21, 0x4E0811A1⟩,
   ⟨0b111100, 3, 0, 4, 6, 0xF7537E82⟩, ⟨0b111101, 3, 1, 11, 10, 0xBD3AF235⟩,
   ⟨0b111110, 3, 2, 2, 15, 0x2AD7D2BB⟩, ⟨0b111111, 3, 3, 9, 21, 0xEB86D391⟩]

/-- The 64-step schedule as R213 prints it, a second transcription beside the ROMs. -/
def schedule : List ScheduleRow := scheduleFF ++ scheduleGG ++ scheduleHH ++ scheduleII

end Sys2Proof.Machine
end

