-- ==== Sys2Proof/Safety.lean ====
section
/-!
DEFINITION. What claims speak of: the invariant of the engine's state (R35, R141, R76), the states at a command boundary,
and a run without misuse (93_implementation_defined.md U1).
-/

namespace Sys2Proof.Machine

/-- A response word that the engine can produce: one of the codes of R231 in 31:24, zeros in 23:8, and RDATA = 0 whenever
the status is not OK (R76, R77). -/
def ResponseWellFormed (w : Word) : Prop :=
  ∃ (st : Status) (rdata : Byte), w = respWord st rdata ∧ (st ≠ .ok → rdata = 0)

/-- The invariant of the engine (R35). COUNT counts whole bytes (R141). While FINALIZED = 1, COUNT and BUF are zero (R35 (3))
and DIGEST is the little-endian view of A..D (decision D17). At a command boundary no transform is in progress (R31), no
byte is pending and X is clear (R210). While a command is in progress the engine is not finalized and shows no response
(R32). While RST is asserted it shows none either (R260). A valid response is well formed (R76). -/
structure EngineInv (s : State) : Prop where
  countBytes : s.count.extractLsb' 0 3 = 0
  finalCount : s.finalized = true → s.count = 0
  finalBuf : s.finalized = true → s.buf = zeroBuf
  finalDigest : s.finalized = true → s.digest = encodeDigest s.chain
  busyNotFinal : s.seq ≠ .idle → s.finalized = false
  busyNoResp : s.seq ≠ .idle → s.respValid = false
  idlePending : s.seq = .idle → s.pending = []
  restStep : (∀ k, s.seq ≠ .compress k) → s.stepCtr = 0
  restX : (∀ k, s.seq ≠ .compress k) → s.xbuf = zeroX
  resetNoResp : s.rst = true → s.respValid = false
  respForm : s.respValid = true → ResponseWellFormed s.resp

/-- A command boundary (R31, R35): the engine is IDLE, out of reset, driven by one host. -/
structure Boundary (s : State) : Prop where
  idle : s.seq = .idle
  noReset : s.rst = false
  oneHost : s.secondHost = false

/-- The fill index as a number, (COUNT >> 3) mod 64 (R141). -/
def fillNat (s : State) : Nat := s.count.toNat / 8 % 64

/-- The first bytes of BUF, those below the fill index: the message bytes not yet compressed (R145). -/
def bufTail (s : State) : List Byte := s.buf.toList.take (fillNat s)

/-- Two states that a host cannot tell apart by any response (R34): they agree on the chaining state, COUNT, the flags, the
bytes of BUF below the fill index, and DIGEST where it can be read. They may differ in everything R34 calls hidden and
unread: a..d, X, STEP, the rest of BUF, DIGEST while FINALIZED = 0. -/
structure HostEqual (s t : State) : Prop where
  chain : s.chain = t.chain
  count : s.count = t.count
  finalized : s.finalized = t.finalized
  err : s.err = t.err
  buf : bufTail s = bufTail t
  digest : s.finalized = true → s.digest = t.digest

/-- The next event of the host is not the assertion of RST. -/
def noResetNext (s : State) : Prop := s.rst = false ∧ s.host.head? ≠ some .assertReset

/-- No misuse since INIT or reset: "A claim takes ERR = 0 at the end as its no-misuse premise" (U1). -/
def NoMisuse (s : State) : Prop := s.err = false

end Sys2Proof.Machine
end

