-- ==== Sys2Proof/Certificates/Slice0/Obligations.lean ====
section
/-!
DEFINITION. The statements for the provers, each a `def Obligations.<Name> : Prop`. They follow the numbered rules of spec/:
the encoding, one command's result after another, the step micro-operations and the transform, the errors, the invariant,
and the claims about whole runs.
-/

open Sys2Proof Sys2Proof.Machine Host

/-! ## Encoding -/

/-- Decoding an encoded instruction gives it back, for every instruction of both formats and every operand (R70 to R78). -/
def Obligations.DecodeInvertsEncode : Prop :=
  ∀ i : Instr, decode (encode i) = .ok i

/-- Every encoding that decodes is the encoding of the instruction it decodes to: no instruction has a second word, so no
bit of a legal word is ignored (R75, R80). -/
def Obligations.EncodeInvertsDecode : Prop :=
  ∀ (e : Encoding) (i : Instr), decode e = .ok i → encode i = e

/-- R80: the decoder is the rule's own cascade of tests, on every 32-bit word. -/
def Obligations.DecoderIsTheRuleCascade : Prop :=
  ∀ w : Word,
    (decodeCommand w).toOption =
      let op := w.extractLsb' 28 4
      let arg := w.extractLsb' 24 4
      let data := w.extractLsb' 0 24
      if op = 1 ∧ arg = 0 ∧ data = 0 then some .init
      else if op = 2 ∧ arg = 0 ∧ data = 0 then some .update0
      else if op = 2 ∧ arg = 1 ∧ data.extractLsb' 8 16 = 0 then some (.update1 (data.extractLsb' 0 8))
      else if op = 2 ∧ arg = 2 ∧ data.extractLsb' 16 8 = 0 then
        some (.update2 (data.extractLsb' 0 8) (data.extractLsb' 8 8))
      else if op = 2 ∧ arg = 3 then
        some (.update3 (data.extractLsb' 0 8) (data.extractLsb' 8 8) (data.extractLsb' 16 8))
      else if op = 3 ∧ arg = 0 ∧ data = 0 then some .final
      else if op = 4 ∧ arg = 0 ∧ data.extractLsb' 4 20 = 0 then some (.rdig (data.extractLsb' 0 4))
      else if op = 5 ∧ arg = 0 ∧ data.extractLsb' 5 19 = 0 then some (.rhex (data.extractLsb' 0 5))
      else if op = 6 ∧ arg = 0 ∧ data = 0 then some .rstat
      else none

/-- The legal words are those that some row of the opcode table covers, and no two rows overlap: what the spec derives from
R80's cascade. -/
def Obligations.TableRowsCoverTheLegalWords : Prop :=
  (∀ w : Word, (∃ i, decodeCommand w = .ok i) ↔ ∃ r ∈ commandRows, r.covers w.toNat = true) ∧
  (∀ (w : Word) (r r' : TableRow), r ∈ commandRows → r' ∈ commandRows →
    r.covers w.toNat = true → r'.covers w.toNat = true → r = r')

/-- The grounds of R79: a word is rejected exactly when (a) OP is 0x0 or 0x7 .. 0xF, or (b) OP is 0x1 .. 0x6 and a field that
must be 0 is not, or (c) OP is 0x2 and ARG > 3. Which one name a word gets that falls under several (0x24000000 falls under
(b) too, since R75 counts ARG's bits beyond 0..3) is the model's choice, not R79's: OP first, then the count, then the other
reserved fields (assumption log 21). -/
def Obligations.IllegalWordGrounds : Prop :=
  ∀ w : Word,
    let op := (w.extractLsb' 28 4).toNat
    let arg := (w.extractLsb' 24 4).toNat
    let data := (w.extractLsb' 0 24).toNat
    (decodeCommand w = .error .unassignedOp ↔ (op = 0 ∨ 7 ≤ op)) ∧
    (decodeCommand w = .error .updateCount ↔ (op = 2 ∧ 3 < arg)) ∧
    (decodeCommand w = .error .reservedNotZero ↔
      ((op = 1 ∨ op = 3 ∨ op = 6) ∧ (arg ≠ 0 ∨ data ≠ 0)) ∨
      (op = 2 ∧ arg ≤ 3 ∧ data / 2 ^ (8 * arg) ≠ 0) ∨
      (op = 4 ∧ (arg ≠ 0 ∨ data / 2 ^ 4 ≠ 0)) ∨
      (op = 5 ∧ (arg ≠ 0 ∨ data / 2 ^ 5 ≠ 0)))

/-- Words written out from the encoding rules decode to the instructions they stand for (R81's example, R102, R104, R105;
R78 for a step of each round). -/
def Obligations.WrittenWordsDecode : Prop :=
  decodeCommand 0x10000000 = .ok .init ∧
  decodeCommand 0x23636261 = .ok (.update3 0x61 0x62 0x63) ∧
  decodeCommand 0x30000000 = .ok .final ∧
  decodeCommand 0x4000000F = .ok (.rdig 15) ∧
  decodeCommand 0x5000001F = .ok (.rhex 31) ∧
  decodeCommand 0x60000000 = .ok .rstat ∧
  decodeStep 0b000110 = .ff 1 2 ∧
  decodeStep 0b010110 = .gg 1 2 ∧
  decodeStep 0b100110 = .hh 1 2 ∧
  decodeStep 0b111111 = .ii 3 3

/-! ## Steps -/

/-- At a command boundary, a valid command word that decodes to `i` makes the step be `exec i`, after the word is accepted:
RESP_VALID falls, as R32 and R100 say. That a command is one step, that CMD_VALID falls and the word leaves the port, and
that RESP then holds a free value whose counter moves on, are the model's choices (assumption logs 1, 2 and 3). -/
def Obligations.StepRunsDecodedCommand : Prop :=
  ∀ (s : State) (i : Instr), Boundary s → s.cmdValid = true → decodeCommand s.cmd = .ok i →
    step s = exec i { s with
      cmdValid := false, respValid := false, resp := Config.respWhileInvalid s.freeTick, freeTick := s.freeTick + 1 }

/-- Inside a transform the step is `exec` of the micro-operation that STEP decodes to (R31, R78, R205), when the host has no
event; a `wait` of the host's passes with it. -/
def Obligations.StepRunsDecodedMicroOp : Prop :=
  ∀ (s : State) (k : Starter), s.seq = .compress k → s.rst = false → s.secondHost = false →
    (s.host = [] → step s = exec (decodeStep s.stepCtr) s) ∧
    (∀ es, s.host = .wait :: es → step s = exec (decodeStep s.stepCtr) { s with host := es })

/-- R107, R232: an illegal word, whatever FINALIZED is, gets E_ILLEGAL with RDATA = 0, sets ERR and changes nothing else of
the engine. So E_ILLEGAL comes before E_FINALIZED and E_NOT_FINAL (R236). That all of it is one step, that CMD_VALID falls,
and that the free value of RESP moves on are the model's choices (assumption logs 1, 2 and 3). -/
def Obligations.IllegalWordSetsOnlyErr : Prop :=
  ∀ (s : State) (r : IllegalReason), Boundary s → s.cmdValid = true → decodeCommand s.cmd = .error r →
    step s = .next { s with
      cmdValid := false, freeTick := s.freeTick + 1, resp := 0x01000000, respValid := true, err := true }

/-- "When IDLE it holds its state indefinitely and does nothing until the next command" (R246). -/
def Obligations.IdleEngineHoldsItsState : Prop :=
  ∀ s : State, Boundary s → s.cmdValid = false → s.host = [] → step s = .next s

/-- "A model refuses a launch with two hosts on one engine" (R268, R62), at both levels. The flag that says there are two is
the model's (assumption log 8). -/
def Obligations.TwoHostsAreRefused : Prop :=
  ∀ s : State, s.secondHost = true → step s = .refused .twoHosts ∧ microStep s = .refused .twoHosts

/-- A busy engine accepts no command: a word that waits on CMD stays there through every step taken while SEQ is not IDLE,
at both levels, and no later word of the host takes its place (R32, R108, R265; assumption log 2). -/
def Obligations.BusyEngineHoldsTheCommand : Prop :=
  ∀ s t : State, s.seq ≠ .idle → s.rst = false → s.cmdValid = true → step s = .next t ∨ microStep s = .next t →
    s.ready = false ∧ t.cmd = s.cmd ∧ t.cmdValid = true ∧
      ((∃ w es, s.host = .issue w :: es) → t.host = s.host)

/-- Reset during a command (R261), at both levels: an engine anywhere inside one, whose host asserts RST, gives no response
and is not READY; when the host then deasserts RST nothing of the command is left, and the engine is READY in its reset
state. Apart from that, what the model chooses: RST lands in the step in which the host asserts it, the port's inputs are
kept, and T restarts (assumption logs 2, 13 and 7); and inside a reset, from its first step on and for any state and event of
the host, the engine already holds its reset values (assumption log 13), and so the invariant. -/
def Obligations.ResetAbandonsTheCommand : Prop :=
  (∀ (s : State) (es : List HostEvent), s.seq ≠ .idle → s.rst = false → s.secondHost = false → s.host = .assertReset :: es →
    ∃ t, step s = .next t ∧ microStep s = .next t ∧ t.rst = true ∧ t.host = es ∧ t.respValid = false ∧ t.ready = false ∧
      (∀ rest, es = .releaseReset :: rest →
        ∃ u, step t = .next u ∧ microStep t = .next u ∧ u.ready = true ∧
          u = { State.reset with
            host := rest, cmd := s.cmd, cmdValid := s.cmdValid, resp := u.resp, freeTick := u.freeTick }) ∧
      t = { State.reset with
        rst := true, host := es, cmd := s.cmd, cmdValid := s.cmdValid, resp := t.resp, freeTick := t.freeTick }) ∧
  (∀ s : State, s.rst = true → s.secondHost = false →
    ∃ t, step s = .next t ∧ microStep s = .next t ∧ EngineInv t ∧
      t = { State.reset with
        rst := t.rst, host := s.host.tail, cmd := t.cmd, cmdValid := t.cmdValid, resp := t.resp, freeTick := t.freeTick } ∧
      ((∀ w es, s.host ≠ .issue w :: es) → t.cmd = s.cmd ∧ t.cmdValid = s.cmdValid))

/-- Command words that the host has queued are issued and run in order: two steps a word, the host's and the engine's, and
the state is that of the run (R60, R108, R270; the list of host events is the model's, assumption log 2). -/
def Obligations.QueuedCommandsRunInOrder : Prop :=
  ∀ (ws : List Word) (s : State), Boundary s → s.cmdValid = false → s.host = ws.map .issue →
    ∃ rs t, runCommands ws { s with host := [] } = some (rs, t) ∧
      Host.Core.run core (2 * ws.length) s = .next t

/-! ## INIT, UPDATE and FINAL -/

/-- INIT in every state (R101): the IV, COUNT = 0, FINALIZED = 0, ERR = 0, response OK; everything else, BUF and DIGEST
among it, is unchanged, and a second INIT leaves the same state. -/
def Obligations.InitResult : Prop :=
  ∀ s : State,
    let t : State := { s with
      chain := ⟨0x67452301, 0xEFCDAB89, 0x98BADCFE, 0x10325476⟩, count := 0, finalized := false, err := false,
      resp := 0, respValid := true, seq := .idle }
    exec .init s = .next t ∧ exec .init t = .next t

/-- UPDATE.0, UPDATE.1, UPDATE.2 and UPDATE.3 before FINAL, whose bytes do not fill the buffer: the bytes are stored in lane
order from the fill index on, COUNT advances by 8 for each, the response is OK, and nothing else changes (R102, R142). -/
def Obligations.UpdateStoresWithinTheBlock : Prop :=
  ∀ (s : State) (bytes : List Byte) (i : Instr), updateInstr bytes = some i → s.finalized = false →
    fillNat s + bytes.length < 64 →
    ∃ t, exec i s = .next t ∧
      t = { s with
        count := s.count + BitVec.ofNat 64 (8 * bytes.length), buf := t.buf, resp := 0, respValid := true, seq := .idle } ∧
      t.buf.toList = s.buf.toList.take (fillNat s) ++ bytes ++ s.buf.toList.drop (fillNat s + bytes.length)

/-- UPDATE.1, UPDATE.2 and UPDATE.3 before FINAL, whose bytes fill the buffer: the full block is compressed once, inside the
command; the remaining bytes start the next block in a zeroed buffer; X is clear, STEP is 0; the response is OK; of the rest
only the hidden working words change (R102, R142, R143, R210). -/
def Obligations.UpdateCompressesAFullBlock : Prop :=
  ∀ (s : State) (bytes : List Byte) (i : Instr), updateInstr bytes = some i → s.finalized = false →
    64 ≤ fillNat s + bytes.length →
    ∃ t, exec i s = .next t ∧
      t = { s with
        count := s.count + BitVec.ofNat 64 (8 * bytes.length)
        chain := compressWords s.chain
          (blockWords (s.buf.toList.take (fillNat s) ++ bytes.take (64 - fillNat s)))
        work := t.work, buf := t.buf, xbuf := zeroX, stepCtr := 0, transforms := s.transforms + 1
        resp := 0, respValid := true, seq := .idle } ∧
      t.buf.toList = bytes.drop (64 - fillNat s) ++ List.replicate (128 - fillNat s - bytes.length) 0

/-- UPDATE.0 to UPDATE.3 while FINALIZED = 1 are rejected (R234): E_FINALIZED with RDATA = 0, ERR = 1; no byte is appended
and nothing else changes. -/
def Obligations.UpdateAfterFinalIsRejected : Prop :=
  ∀ (s : State) (bytes : List Byte) (i : Instr), updateInstr bytes = some i → s.finalized = true →
    exec i s = .next { s with resp := 0x02000000, respValid := true, err := true, seq := .idle }

/-- FINAL before FINAL (R103, R148 to R154): the bytes in the buffer, 0x80, (55 - idx) mod 64 zero bytes and the
little-endian length captured before the padding are one block (idx at most 55) or two, and each is compressed once, in
order; DIGEST is the little-endian view of the resulting words, which A..D keep; BUF and COUNT are zero; FINALIZED is 1; the
response is OK; of the rest only the hidden working words change. -/
def Obligations.FinalPadsAndFreezesTheDigest : Prop :=
  ∀ s : State, s.finalized = false →
    let idx := fillNat s
    let blocks := if idx ≤ 55 then 1 else 2
    let padded := bufTail s ++ [0x80] ++ List.replicate ((119 - idx) % 64) 0 ++ lengthBytes s.count
    padded.length = 64 * blocks ∧
    ∃ t, exec .final s = .next t ∧
      t = { s with
        chain := absorbBlocks blocks padded s.chain
        digest := encodeDigest (absorbBlocks blocks padded s.chain)
        work := t.work, buf := zeroBuf, count := 0, finalized := true, xbuf := zeroX, stepCtr := 0
        transforms := s.transforms + blocks, resp := 0, respValid := true, seq := .idle }

/-- FINAL while FINALIZED = 1 is an idempotent no-op that answers OK (R103). -/
def Obligations.SecondFinalChangesNothing : Prop :=
  ∀ s : State, s.finalized = true → exec .final s = .next { s with resp := 0, respValid := true, seq := .idle }

/-- R149 on every fill index: the padding has 1 to 64 bytes, brings the fill index to 56 modulo 64, and is 0x80 and
z = (55 - idx) mod 64 zero bytes; FINAL's bytes are that padding and the eight length bytes. -/
def Obligations.PaddingReachesFiftySix : Prop :=
  (∀ idx : BitVec 6,
    1 ≤ padLen idx ∧ padLen idx ≤ 64 ∧ (idx.toNat + padLen idx) % 64 = 56 ∧
    padLen idx = 1 + (55 + 64 - idx.toNat) % 64 ∧
    (idx.toNat < 56 → padLen idx = 56 - idx.toNat) ∧ (56 ≤ idx.toNat → padLen idx = 120 - idx.toNat)) ∧
  (∀ count : BitVec 64,
    padBytes count =
      [0x80] ++ List.replicate ((55 + 64 - count.toNat / 8 % 64) % 64) 0 ++ lengthBytes count)

/-- R146: COUNT + 8 is the 33-bit sum of COUNT_LO and 8, whose low 32 bits are the new COUNT_LO and whose carry is added to
COUNT_HI modulo 2^32. The count is the one that storing a byte leaves. -/
def Obligations.CounterCarriesIntoTheHighWord : Prop :=
  ∀ (v : Byte) (s : State),
    let lo := (countLo s.count).toNat + 8
    countLo (storeByte v s).count = BitVec.ofNat 32 (lo % 2 ^ 32) ∧
    countHi (storeByte v s).count = BitVec.ofNat 32 ((countHi s.count).toNat + lo / 2 ^ 32)

/-! ## Reads -/

/-- RDIG i while FINALIZED = 1 answers OK with DIGEST[i], for every i, and changes nothing else (R104). -/
def Obligations.RdigReturnsTheDigestByte : Prop :=
  ∀ (s : State) (i : BitVec 4), s.finalized = true →
    exec (.rdig i) s = .next { s with
      resp := (s.digest[i.toNat]'i.isLt).setWidth 32, respValid := true, seq := .idle }

/-- RHEX j while FINALIZED = 1 answers OK with the ASCII code of a lowercase hex digit: of the high nibble of DIGEST[j / 2]
when j is even, of the low nibble when j is odd; and it changes nothing else (R105, R188). -/
def Obligations.RhexReturnsTheHexCharacter : Prop :=
  ∀ (s : State) (j : BitVec 5), s.finalized = true →
    let byte := (s.digest[j.toNat / 2]'(by have := j.isLt; omega)).toNat
    let nibble := if j.toNat % 2 = 0 then byte / 16 else byte % 16
    let char := if nibble ≤ 9 then 0x30 + nibble else 0x61 + (nibble - 10)
    exec (.rhex j) s = .next { s with resp := BitVec.ofNat 32 char, respValid := true, seq := .idle } ∧
    ((0x30 ≤ char ∧ char ≤ 0x39) ∨ (0x61 ≤ char ∧ char ≤ 0x66))

/-- RDIG and RHEX while FINALIZED = 0 are rejected (R235): E_NOT_FINAL with RDATA = 0, ERR = 1; nothing else changes. -/
def Obligations.ReadBeforeFinalIsRejected : Prop :=
  ∀ s : State, s.finalized = false →
    let t : State := { s with resp := 0x03000000, respValid := true, err := true, seq := .idle }
    (∀ i, exec (.rdig i) s = .next t) ∧ (∀ j, exec (.rhex j) s = .next t)

/-- RSTAT in every state answers OK with STATUS: bit 0 FINALIZED, bit 1 ERR, bits 7:2 zero; and it changes nothing else
(R29, R106). -/
def Obligations.RstatReturnsTheStatusRegister : Prop :=
  ∀ s : State,
    exec .rstat s = .next { s with
      resp := BitVec.ofNat 32 ((if s.err then 2 else 0) + (if s.finalized then 1 else 0)), respValid := true, seq := .idle }

/-- Reading twice in a row gives the same response as reading once (R58), for RDIG, RHEX and RSTAT in every state in which a
read does not first set ERR. A failing read does set it, and the second one fails alike. -/
def Obligations.RepeatedReadsAnswerAlike : Prop :=
  ∀ (s t u : State) (i : Instr), (∃ k, i = .rdig k) ∨ (∃ k, i = .rhex k) ∨ i = .rstat →
    exec i s = .next t → exec i t = .next u → u.resp = t.resp ∧ u = t

/-! ## The datapath and the step micro-operations -/

/-- R172: rotl32 moves bit k to bit (k + s) mod 32 for every s in 0..31, equals the rule's two shifts for 1 <= s <= 31, and
is the identity for s = 0; with the rule's corner cases and example. -/
def Obligations.RotatorMovesEveryBit : Prop :=
  (∀ (x : Word) (s : BitVec 5) (k : Nat), k < 32 →
    (rotl32 x s).getLsbD ((k + s.toNat) % 32) = x.getLsbD k) ∧
  (∀ (x : Word) (s : BitVec 5), s ≠ 0 → rotl32 x s = (x <<< s.toNat) ||| (x >>> (32 - s.toNat))) ∧
  (∀ x : Word, rotl32 x 0 = x) ∧
  (∀ s : BitVec 5, rotl32 0xFFFFFFFF s = 0xFFFFFFFF) ∧
  rotl32 0x80000000 1 = 0x00000001 ∧ rotl32 0x12345678 4 = 0x23456781

/-- R174 to R177: each mixing function is bitwise with the printed truth table, listing (x, y, z) from 000 to 111: F picks y
where x = 1 and z where x = 0, G picks x where z = 1 and y where z = 0, H is odd parity, I is 1 0 0 1 1 1 0 0; F also equals
z ^ (x & (y ^ z)). -/
def Obligations.MixingTruthTables : Prop :=
  (∀ (x y z : Word) (k : Nat), k < 32 →
    let n := 4 * (x.getLsbD k).toNat + 2 * (y.getLsbD k).toNat + (z.getLsbD k).toNat
    (mixF x y z).getLsbD k = [false, true, false, true, false, false, true, true].getD n false ∧
    (mixG x y z).getLsbD k = [false, false, true, false, false, true, true, true].getD n false ∧
    (mixH x y z).getLsbD k = [false, true, true, false, true, false, false, true].getD n false ∧
    (mixI x y z).getLsbD k = [true, false, false, true, true, true, false, false].getD n false) ∧
  (∀ x y z : Word, mixF x y z = z ^^^ (x &&& (y ^^^ z)))

/-- R213: the printed 64-step schedule agrees row by row with the decode of STEP (R205), with g(i) (R183), with S[r][p]
(R182) and with KROM (R180). -/
def Obligations.ScheduleTableAgreesWithTheRoms : Prop :=
  schedule.length = 64 ∧
  ∀ i : Fin 64, schedule[i.val]? = some
    ⟨BitVec.ofNat 6 i.val, roundOf (BitVec.ofNat 6 i.val), posOf (BitVec.ofNat 6 i.val), msgIndex (BitVec.ofNat 6 i.val),
      srom (roundOf (BitVec.ofNat 6 i.val)) (posOf (BitVec.ofNat 6 i.val)), krom (BitVec.ofNat 6 i.val)⟩

/-- R181: KROM[i] = floor(2^32 * |sin(i + 1)|), the argument in radians, for all 64 entries. -/
def Obligations.ConstantRomIsTheSineTable : Prop :=
  ∀ i : BitVec 6, ((krom i).toNat : Int) = ⌊(2 : ℝ) ^ 32 * |Real.sin ((i.toNat : ℝ) + 1)|⌋

/-- R183: over the sixteen steps of any one round, g takes each of the values 0..15 exactly once. R173: every rotate amount
lies in 4..23. -/
def Obligations.SchedulesArePermutations : Prop :=
  (∀ (r : BitVec 2) (k : BitVec 4), ∃ i : BitVec 6,
    (roundOf i = r ∧ msgIndex i = k) ∧ ∀ j : BitVec 6, roundOf j = r ∧ msgIndex j = k → j = i) ∧
  (∀ r p : BitVec 2, 4 ≤ (srom r p).toNat ∧ (srom r p).toNat ≤ 23)

/-- R185 with R53: at the start of a transform word j of X becomes the little-endian value of BUF[4j .. 4j+3]. -/
def Obligations.DecoderIsLittleEndian : Prop :=
  ∀ (s : State) (j : Fin 16),
    ((startTransform s).xbuf[j.val]).toNat =
      (s.buf[4 * j.val]).toNat + (s.buf[4 * j.val + 1]).toNat * 2 ^ 8 + (s.buf[4 * j.val + 2]).toNat * 2 ^ 16 +
        (s.buf[4 * j.val + 3]).toNat * 2 ^ 24

/-- R186 and R187: the end of the padding sequence writes DIGEST[4w+j] with byte j of S_w, and LEN[k] is byte k of L, with
the rules' examples. -/
def Obligations.EncodersAreLittleEndian : Prop :=
  (∀ (s : State) (w j : Fin 4),
    ((freezeDigest s).digest[4 * w.val + j.val]).toNat = (s.chain.get w).toNat / 2 ^ (8 * j.val) % 256) ∧
  (∀ (len : BitVec 64) (k : Fin 8), ((lengthBytes len)[k.val]?).map BitVec.toNat = some (len.toNat / 2 ^ (8 * k.val) % 256)) ∧
  (encodeDigest ⟨0xD98C1DD4, 0, 0, 0⟩).toList.take 4 = [0xd4, 0x1d, 0x8c, 0xd9] ∧
  lengthBytes 24 = [0x18, 0, 0, 0, 0, 0, 0, 0]

/-- FF (R201), the micro-operation of STEP = i in 0..15: at STEP = i = 4q + p, t = a + F(b, c, d) + X[i] + KROM[i], s in 7, 12, 17, 22 by p, and
(a, b, c, d) <- (d, b + rotl32(t, s), b, c); STEP advances; nothing else changes. -/
def Obligations.FFStepResult : Prop :=
  ∀ (q p : BitVec 2) (s : State),
    let i := 4 * q.toNat + p.toNat
    let w := s.work
    let f := (w.b &&& w.c) ||| (~~~w.b &&& w.d)
    let t := w.a + f + s.xbuf[i % 16]'(Nat.mod_lt _ (by decide)) + krom (BitVec.ofNat 6 i)
    let amount : BitVec 5 := [7, 12, 17, 22].getD p.toNat 0
    decodeStep (BitVec.ofNat 6 i) = .ff q p ∧
    exec (.ff q p) s = .next { s with
      work := ⟨w.d, w.b + rotl32 t amount, w.b, w.c⟩, stepCtr := BitVec.ofNat 6 (i + 1) }

/-- GG (R202), the micro-operation of STEP = i in 16..31: at STEP = i = 16 + 4q + p, t = a + G(b, c, d) + X[(5i + 1) mod 16] + KROM[i], s in 5, 9, 14, 20 by p, and
(a, b, c, d) <- (d, b + rotl32(t, s), b, c); STEP advances; nothing else changes. -/
def Obligations.GGStepResult : Prop :=
  ∀ (q p : BitVec 2) (s : State),
    let i := 16 + 4 * q.toNat + p.toNat
    let w := s.work
    let f := (w.b &&& w.d) ||| (w.c &&& ~~~w.d)
    let t := w.a + f + s.xbuf[(5 * i + 1) % 16]'(Nat.mod_lt _ (by decide)) + krom (BitVec.ofNat 6 i)
    let amount : BitVec 5 := [5, 9, 14, 20].getD p.toNat 0
    decodeStep (BitVec.ofNat 6 i) = .gg q p ∧
    exec (.gg q p) s = .next { s with
      work := ⟨w.d, w.b + rotl32 t amount, w.b, w.c⟩, stepCtr := BitVec.ofNat 6 (i + 1) }

/-- HH (R203), the micro-operation of STEP = i in 32..47: at STEP = i = 32 + 4q + p, t = a + H(b, c, d) + X[(3i + 5) mod 16] + KROM[i], s in 4, 11, 16, 23 by p, and
(a, b, c, d) <- (d, b + rotl32(t, s), b, c); STEP advances; nothing else changes. -/
def Obligations.HHStepResult : Prop :=
  ∀ (q p : BitVec 2) (s : State),
    let i := 32 + 4 * q.toNat + p.toNat
    let w := s.work
    let f := w.b ^^^ w.c ^^^ w.d
    let t := w.a + f + s.xbuf[(3 * i + 5) % 16]'(Nat.mod_lt _ (by decide)) + krom (BitVec.ofNat 6 i)
    let amount : BitVec 5 := [4, 11, 16, 23].getD p.toNat 0
    decodeStep (BitVec.ofNat 6 i) = .hh q p ∧
    exec (.hh q p) s = .next { s with
      work := ⟨w.d, w.b + rotl32 t amount, w.b, w.c⟩, stepCtr := BitVec.ofNat 6 (i + 1) }

/-- II (R204), the micro-operation of STEP = i in 48..63: at STEP = i = 48 + 4q + p, t = a + I(b, c, d) + X[(7i) mod 16] + KROM[i], s in 6, 10, 15, 21 by p, and
(a, b, c, d) <- (d, b + rotl32(t, s), b, c). Before step 63 STEP advances and nothing else changes. After step 63 the
feed-forward follows (R207, R210): each of A..D is incremented by its working word, X and then BUF are zeroed, STEP is 0 and
SEQ resumes the state that started the transform; nothing else changes but the model's count of transforms. That the
feed-forward and the zeroing of BUF (R143) fall in the same step is the model's choice (assumption logs 7 and 11). -/
def Obligations.IIStepResult : Prop :=
  ∀ (q p : BitVec 2) (s : State),
    let i := 48 + 4 * q.toNat + p.toNat
    let w := s.work
    let f := w.c ^^^ (w.b ||| ~~~w.d)
    let t := w.a + f + s.xbuf[(7 * i) % 16]'(Nat.mod_lt _ (by decide)) + krom (BitVec.ofNat 6 i)
    let amount : BitVec 5 := [6, 10, 15, 21].getD p.toNat 0
    let v : Quad := ⟨w.d, w.b + rotl32 t amount, w.b, w.c⟩
    decodeStep (BitVec.ofNat 6 i) = .ii q p ∧
    (i ≠ 63 → exec (.ii q p) s = .next { s with work := v, stepCtr := BitVec.ofNat 6 (i + 1) }) ∧
    (i = 63 → exec (.ii q p) s = .next { s with
      work := v, chain := ⟨s.chain.a + v.a, s.chain.b + v.b, s.chain.c + v.c, s.chain.d + v.d⟩
      xbuf := Vector.replicate 16 0, buf := Vector.replicate 64 0, stepCtr := 0, transforms := s.transforms + 1
      seq := s.seq.starter.seq })

/-- R208: after each group of four steps the role view of R207 and the fixed-slot view agree. -/
def Obligations.FixedSlotViewAgrees : Prop :=
  ∀ (x : Vector Word 16) (w : Quad) (n : Nat), n ≤ 16 → roundsFrom x (4 * n) 0 w = slotRoundsFrom x (4 * n) 0 w

/-- R211 and R212: Transform() decodes BUF, runs the 64 steps (here in the fixed-slot view that the spec derives in R208)
and adds the result to A..D. The new A..D depend only on A..D and the 64 bytes of BUF. It writes only A..D, a..d, X, STEP and BUF, which end as the
rules say, and SEQ resumes its starter; it writes no flag. -/
def Obligations.TransformCompressesTheBlock : Prop :=
  ∀ s : State,
    let x : Vector Word 16 := Vector.ofFn fun j => blockWord s.buf.toList j.val
    let v := slotRoundsFrom x 64 0 s.chain
    transform s = { s with
      chain := ⟨s.chain.a + v.a, s.chain.b + v.b, s.chain.c + v.c, s.chain.d + v.d⟩
      work := v, buf := Vector.replicate 64 0, xbuf := Vector.replicate 16 0, stepCtr := 0
      seq := s.seq.starter.seq, transforms := s.transforms + 1 }

/-! ## Errors, flags and the whole machine -/

/-- Every host command completes with one well-formed response (R76, R77, R231): the status is one of the four codes, bits
23:8 are 0, RDATA is 0 unless the status is OK, and INIT, UPDATE and FINAL return RDATA = 0. -/
def Obligations.EveryCommandAnswers : Prop :=
  ∀ (i : Instr) (s : State), i.isCommand = true →
    ∃ t, exec i s = .next t ∧ t.respValid = true ∧ t.seq = .idle ∧
      (respStatus t.resp).toNat ≤ 3 ∧ t.resp.extractLsb' 8 16 = 0 ∧
      (respStatus t.resp ≠ 0 → respData t.resp = 0) ∧
      (i = .init ∨ i.isUpdate = true ∨ i = .final → respData t.resp = 0)

/-- Errors are precise (R237): a command that answers with an error has changed nothing but ERR and the response port,
whatever the state; and an error response to any command word, legal or not, leaves the engine IDLE with nothing else
changed, the command port and the free value of RESP apart (the model's choices, assumption logs 1, 2, 3 and 24). -/
def Obligations.ErrorsArePrecise : Prop :=
  (∀ (i : Instr) (s t : State), i.isCommand = true → exec i s = .next t → respStatus t.resp ≠ 0 →
    t = { s with err := true, resp := t.resp, respValid := true, seq := .idle }) ∧
  (∀ (w : Word) (s t : State), Boundary s → runCommand w s = some t → respStatus t.resp ≠ 0 →
    t = { s with
      err := true, resp := t.resp, respValid := true, seq := .idle, cmd := w, cmdValid := false
      freeTick := s.freeTick + 1 })

/-- The sticky error flag (R233). Over every command word, legal or not: INIT clears ERR; after any other word ERR is set if
it was set or the response's status is not OK, and only then. Over every step from every state: ERR is cleared only by an
INIT that runs, in an IDLE engine, and by hardware reset; and it is clear when RST is deasserted. (Inside a reset it is clear
too, by the model's choice: ResetAbandonsTheCommand, assumption log 13.) Two things here are the model's choices: a run's word
replaces one that waits on CMD at its start (assumption log 24), and the host's events are a list whose head lands next
(assumption log 2). -/
def Obligations.ErrIsSticky : Prop :=
  (∀ (w : Word) (s t : State), Boundary s → runCommand w s = some t →
    (decodeCommand w = .ok .init → t.err = false) ∧
    (decodeCommand w ≠ .ok .init → t.err = (s.err || respStatus t.resp != 0))) ∧
  (∀ s t : State, step s = .next t → s.err = true → t.err = false →
    s.rst = true ∨ s.host.head? = some .assertReset ∨
      (s.seq = .idle ∧ s.cmdValid = true ∧ decodeCommand s.cmd = .ok .init)) ∧
  (∀ s t : State, s.rst = true → step s = .next t → t.rst = false → t.err = false)

/-- Every command word, legal or not, completes at a command boundary and leaves the engine at one, with exactly one
response; the machine is total on all 2^32 words (R32, R107, R271).
A run's word replaces one that waits on CMD at its start, by the model's choice (assumption log 24). -/
def Obligations.EveryWordCompletes : Prop :=
  ∀ (w : Word) (s : State), Boundary s →
    ∃ t, runCommand w s = some t ∧ Boundary t ∧ t.ready = true ∧ t.respValid = true ∧ t.host = s.host

/-- "Nothing writes DIGEST while FINALIZED = 1" (R26): no step changes it, short of a reset; and FINALIZED itself stays 1
unless the step runs an INIT (R27). -/
def Obligations.DigestIsImmutableWhileFinalized : Prop :=
  ∀ s t : State, EngineInv s → noResetNext s → s.finalized = true → step s = .next t →
    t.digest = s.digest ∧ (t.finalized = true ∨
      (s.seq = .idle ∧ s.cmdValid = true ∧ decodeCommand s.cmd = .ok .init))

/-- Two things write A..D (R20): the INIT command and the feed-forward of a transform. Any step that changes them, short of
a reset, runs an INIT (the engine is IDLE and an INIT waits) or completes a transform, by the model's count of them
(assumption log 7). -/
def Obligations.OnlyInitAndFeedForwardWriteTheState : Prop :=
  ∀ s t : State, noResetNext s → step s = .next t → t.chain ≠ s.chain →
    (s.seq = .idle ∧ s.cmdValid = true ∧ decodeCommand s.cmd = .ok .init) ∨ s.transforms < t.transforms

/-! ## Reset and invariants -/

/-- Hardware reset from any state, at both levels (R260). While RST is asserted the engine is not READY and shows no
response, whatever the host does. When RST is deasserted every piece of state holds its reset value, READY is 1, and the
invariant holds, as R260 says of R35. That one event of the host deasserts RST in one step is the model's choice (assumption
log 2). Nothing is said here of the values inside the reset; ResetAbandonsTheCommand says those (assumption log 13). -/
def Obligations.ResetFromAnyState : Prop :=
  ∀ s : State, s.rst = true → s.secondHost = false →
    ∃ t, step s = .next t ∧ microStep s = .next t ∧
      s.ready = false ∧ t.respValid = false ∧ (t.rst = true → t.ready = false) ∧
      (s.host.head? = some .releaseReset → t.rst = false) ∧
      (t.rst = false →
        t.chain = ⟨0x67452301, 0xEFCDAB89, 0x98BADCFE, 0x10325476⟩ ∧ t.work = ⟨0, 0, 0, 0⟩ ∧ t.count = 0 ∧
        t.finalized = false ∧ t.err = false ∧ (∀ j : Fin 64, t.buf[j.val] = 0) ∧ (∀ j : Fin 16, t.xbuf[j.val] = 0) ∧
        (∀ j : Fin 16, t.digest[j.val] = 0) ∧ t.seq = .idle ∧ t.stepCtr = 0 ∧ t.ready = true ∧ EngineInv t)

/-- The reset values that the specification gives (R36), in State.reset; and READY = 1 there. -/
def Obligations.ResetStateValues : Prop :=
  State.reset.chain = ⟨0x67452301, 0xEFCDAB89, 0x98BADCFE, 0x10325476⟩ ∧ State.reset.work = ⟨0, 0, 0, 0⟩ ∧
  State.reset.count = 0 ∧ State.reset.finalized = false ∧ State.reset.err = false ∧
  State.reset.buf = Vector.replicate 64 0 ∧ State.reset.xbuf = Vector.replicate 16 0 ∧
  State.reset.digest = Vector.replicate 16 0 ∧ State.reset.seq = .idle ∧ State.reset.stepCtr = 0 ∧
  State.reset.respValid = false ∧ State.reset.ready = true

/-- The invariant holds right after reset (R35, R260). -/
def Obligations.InvariantHoldsAtReset : Prop := EngineInv State.reset

/-- Every step of the machine keeps the invariant (R35), from every state that has it. -/
def Obligations.StepKeepsTheInvariant : Prop :=
  ∀ s t : State, EngineInv s → step s = .next t → EngineInv t

/-- Every step at the micro-sequence level keeps it too, so it holds inside commands as well as between them. -/
def Obligations.MicroStepKeepsTheInvariant : Prop :=
  ∀ s t : State, EngineInv s → microStep s = .next t → EngineInv t

/-! ## Whole runs -/

/-- R11, R60 and R271: the micro-sequence runs every accepted command to the state of the command level, in at most 202
sequencer steps (FINAL's start, at most 72 bytes, two transforms of 64 steps, the end), when the host has no event in the
meantime; and at every step before the last the engine is not READY and shows no response (R32). -/
def Obligations.MicroSequenceRefinesTheCommand : Prop :=
  ∀ s t : State, Boundary s → s.pending = [] → s.host = [] → s.cmdValid = true → step s = .next t →
    ∃ n, 0 < n ∧ n ≤ 202 ∧ runMicro n s = .next t ∧
      ∀ k, 0 < k → k < n → ∃ u, runMicro k s = .next u ∧ u.ready = false ∧ u.respValid = false

/-- R13, R3, R276: INIT, any UPDATE commands, FINAL, from any command boundary: every response is OK, DIGEST is the digest
of the concatenated message, ERR is 0, and the transforms run are floor((L + 8) / 64) + 1. The digest function `md5` is the
model's writing of R151, R152 and R211 without a machine (assumption log 19), T its counter (log 7).
A run's word replaces one that waits on CMD at its start, by the model's choice (assumption log 24). -/
def Obligations.HashRunComputesTheDigest : Prop :=
  ∀ (s : State) (us : List Instr), Boundary s → us.all Instr.isUpdate = true →
    ∃ t, runCommands (words ([.init] ++ us ++ [.final])) s = some (List.replicate (us.length + 2) 0, t) ∧
      t.digest = md5 (messageOf us) ∧ t.finalized = true ∧ NoMisuse t ∧
      t.transforms = s.transforms + (((messageOf us).length + 8) / 64 + 1)

/-- R85: HASH m from any command boundary gives the 32 lowercase hex characters of the digest of m.
A run's word replaces one that waits on CMD at its start, by the model's choice (assumption log 24). -/
def Obligations.HashGivesTheHexDigest : Prop :=
  ∀ (s : State) (m : List Byte), Boundary s → hashResult m s = some (hexString (md5 m))

/-- R109: UPDATE commands whose bytes concatenate to the same message leave the same state, however the message is split,
empty chunks included; only the ports and the numbering of RESP's free values tell how many commands there were.
A run's word replaces one that waits on CMD at its start, by the model's choice (assumption log 24). -/
def Obligations.IncrementalEquivalence : Prop :=
  ∀ (s : State) (us vs : List Instr), Boundary s → s.finalized = false →
    us.all Instr.isUpdate = true → vs.all Instr.isUpdate = true → messageOf us = messageOf vs →
    ∃ t u, runCommands (words us) s = some (List.replicate us.length 0, t) ∧
      runCommands (words vs) s = some (List.replicate vs.length 0, u) ∧
      u = { t with
        resp := u.resp, respValid := u.respValid, cmd := u.cmd, cmdValid := u.cmdValid, freeTick := u.freeTick }

/-- R110: the responses to a sequence of command words that begins with INIT depend on the words alone, not on the state
before.
A run's word replaces one that waits on CMD at its start, by the model's choice (assumption log 24). -/
def Obligations.InitErasesThePast : Prop :=
  ∀ (s t : State) (ws : List Word), Boundary s → Boundary t →
    responses (0x10000000 :: ws) s = responses (0x10000000 :: ws) t ∧
      (responses (0x10000000 :: ws) s).isSome = true

/-- R34: two engines at a command boundary that differ only in what is hidden and unread (a..d, X, STEP, the bytes of BUF
from the fill index on, DIGEST while FINALIZED = 0) give the same observation of every run.
A run's word replaces one that waits on CMD at its start, by the model's choice (assumption log 24). -/
def Obligations.HiddenStateIsUnobservable : Prop :=
  ∀ (s t : State) (ws : List Word), Boundary s → Boundary t → HostEqual s t →
    observeRun ws s = observeRun ws t ∧ (observeRun ws s).isSome = true

/-- R82: UPDATE_BYTES m is one empty UPDATE for the empty string, and otherwise one UPDATE for each three bytes and one for
the last one or two; command t carries the bytes of m from 3t on, at most three. So it presents exactly the bytes of m, in
order. -/
def Obligations.UpdateBytesExpansion : Prop :=
  ∀ m : List Byte,
    (updateBytes m).length = (if m = [] then 1 else m.length / 3 + (if m.length % 3 = 0 then 0 else 1)) ∧
    (∀ t, t < (updateBytes m).length → (updateBytes m)[t]? = updateInstr ((m.drop (3 * t)).take 3)) ∧
    (updateBytes m).all Instr.isUpdate = true ∧ messageOf (updateBytes m) = m

/-- R83 and R84: DIGEST_BYTES after FINAL gives the sixteen digest bytes in order and before it "not finalized"; HEXDIGEST
after FINAL gives the 32 characters and before it the empty string.
A run's word replaces one that waits on CMD at its start, by the model's choice (assumption log 24). -/
def Obligations.DigestReadSequences : Prop :=
  ∀ s : State, Boundary s →
    (s.finalized = true →
      (responses (words digestBytes) s).map digestBytesResult = some (some s.digest.toList) ∧
      (responses (words hexDigest) s).map hexDigestResult = some (hexString s.digest)) ∧
    (s.finalized = false →
      (responses (words digestBytes) s).map digestBytesResult = some none ∧
      (responses (words hexDigest) s).map hexDigestResult = some [])

/-- R81: the assembler gives a word exactly to the well-formed lines, never a truncation, and the word decodes to its line:
INIT, FINAL and RSTAT lines to those commands, an UPDATE line to an UPDATE that carries the line's bytes in order, RDIG and
RHEX lines to the reads of their indices; a `.word` line's word is the number written, legal or not. A line is its operands
here; how it is spelled is assumption log 14. -/
def Obligations.AssemblerNeverTruncates : Prop :=
  (∀ l : AsmLine, (assembleLine l).isSome = l.wf) ∧
  (∀ w : Word, assembleLine .init = some w → decodeCommand w = .ok .init) ∧
  (∀ (bytes : List Nat) (w : Word), assembleLine (.update bytes) = some w →
    ∃ i, decodeCommand w = .ok i ∧ i.isUpdate = true ∧ i.messageBytes.map BitVec.toNat = bytes) ∧
  (∀ w : Word, assembleLine .final = some w → decodeCommand w = .ok .final) ∧
  (∀ (n : Nat) (w : Word), assembleLine (.rdig n) = some w → ∃ i, decodeCommand w = .ok (.rdig i) ∧ i.toNat = n) ∧
  (∀ (n : Nat) (w : Word), assembleLine (.rhex n) = some w → ∃ j, decodeCommand w = .ok (.rhex j) ∧ j.toNat = n) ∧
  (∀ w : Word, assembleLine .rstat = some w → decodeCommand w = .ok .rstat) ∧
  (∀ (n : Nat) (w : Word), assembleLine (.word n) = some w → w.toNat = n)
end

