-- ==== Sys2Proof/Laws/Encoding.lean ====
section
/-!
SUPPORT. The fields of a command word that is built from its fields, and of a step index; and a word built again from its
own fields.
-/

namespace Sys2Proof

@[simp] theorem commandWord_op (op arg : BitVec 4) (data : BitVec 24) : (commandWord op arg data).op = op := by
  ext i hi
  have h1 : ¬ 28 + i < 24 := by omega
  have h2 : ¬ 28 + i - 24 < 4 := by omega
  have h3 : 28 + i - 24 - 4 = i := by omega
  simp only [commandWord, Word.op, BitVec.getElem_extractLsb', BitVec.getLsbD_append, h1, h2, h3, if_false]
  simp [BitVec.getLsbD_eq_getElem hi]

@[simp] theorem commandWord_arg (op arg : BitVec 4) (data : BitVec 24) : (commandWord op arg data).arg = arg := by
  ext i hi
  have h1 : ¬ 24 + i < 24 := by omega
  have h3 : 24 + i - 24 = i := by omega
  simp only [commandWord, Word.arg, BitVec.getElem_extractLsb', BitVec.getLsbD_append, h1, h3, if_false]
  simp [hi]

@[simp] theorem commandWord_data (op arg : BitVec 4) (data : BitVec 24) : (commandWord op arg data).data = data := by
  ext i hi
  have h1 : 0 + i < 24 := by omega
  simp only [commandWord, Word.data, BitVec.getElem_extractLsb', BitVec.getLsbD_append, h1]
  simp [BitVec.getLsbD_eq_getElem hi]

/-- A lane of a command word is a lane of its DATA (R71). -/
theorem commandWord_lane (op arg : BitVec 4) (data : BitVec 24) (k : Nat) (h : k < 3) :
    (commandWord op arg data).lane k = data.extractLsb' (8 * k) 8 := by
  ext i hi
  have h1 : 8 * k + i < 24 := by omega
  simp only [commandWord, Word.lane, BitVec.getElem_extractLsb', BitVec.getLsbD_append, h1]
  simp

/-- A command word is its three fields (R70). -/
theorem commandWord_fields (w : Word) : commandWord w.op w.arg w.data = w := by
  apply BitVec.eq_of_getLsbD_eq
  intro i hi
  simp only [commandWord, Word.data, Word.op, Word.arg, BitVec.getLsbD_append, BitVec.getLsbD_extractLsb']
  by_cases h1 : i < 24
  · simp [h1]
  · by_cases h2 : i - 24 < 4
    · have : 24 + (i - 24) = i := by omega
      simp [h1, h2, this]
    · have h3 : i - 24 - 4 < 4 := by omega
      have : 28 + (i - 24 - 4) = i := by omega
      simp [h1, h2, h3, this]

/-- The three lanes of a DATA field that is built from its lanes (R71). -/
theorem data_lanes (m2 m1 m0 : Byte) :
    ((m2 ++ m1 ++ m0 : BitVec 24).extractLsb' 0 8 = m0) ∧ ((m2 ++ m1 ++ m0 : BitVec 24).extractLsb' 8 8 = m1) ∧
      ((m2 ++ m1 ++ m0 : BitVec 24).extractLsb' 16 8 = m2) := by
  refine ⟨?_, ?_, ?_⟩ <;>
  · apply BitVec.eq_of_getLsbD_eq
    intro i hi
    simp only [BitVec.getLsbD_append, BitVec.getLsbD_extractLsb', hi, decide_true, Bool.true_and]
    try rw [if_pos (by omega)]
    try rw [if_neg (by omega), if_pos (by omega)]
    try rw [if_neg (by omega), if_neg (by omega)]
    congr 1
    omega

/-- The lanes above the first of a one-byte DATA field are zero (R73). -/
theorem data_high_lanes (m0 : Byte) : (0#8 ++ 0#8 ++ m0 : BitVec 24).extractLsb' 8 16 = 0 := by
  apply BitVec.eq_of_getLsbD_eq
  intro i hi
  simp only [BitVec.getLsbD_append, BitVec.getLsbD_extractLsb', hi, decide_true, Bool.true_and]
  rw [if_neg (by omega)]
  split <;> simp

/-! ## Fields as numbers -/

/-- A concatenation as a number. -/
theorem toNat_append_eq {n m : Nat} (x : BitVec n) (y : BitVec m) : (x ++ y).toNat = x.toNat * 2 ^ m + y.toNat := by
  rw [BitVec.toNat_append, ← Nat.shiftLeft_add_eq_or_of_lt y.isLt, Nat.shiftLeft_eq]

/-- A bit field as a number. -/
theorem toNat_extractLsb'_eq {n : Nat} (x : BitVec n) (lo len : Nat) :
    (x.extractLsb' lo len).toNat = x.toNat / 2 ^ lo % 2 ^ len := by
  rw [BitVec.extractLsb'_toNat, Nat.shiftRight_eq_div_pow]

/-- OP as a number (R70). -/
theorem op_toNat (w : Word) : w.op.toNat = w.toNat / 2 ^ 28 := by
  rw [Word.op, toNat_extractLsb'_eq]
  have := w.isLt
  omega

/-- ARG as a number (R70). -/
theorem arg_toNat (w : Word) : w.arg.toNat = w.toNat / 2 ^ 24 % 16 := toNat_extractLsb'_eq w 24 4

/-- DATA as a number (R70). -/
theorem data_toNat (w : Word) : w.data.toNat = w.toNat % 2 ^ 24 := by
  rw [Word.data, toNat_extractLsb'_eq]
  omega

/-- A command word as a number (R70). -/
theorem commandWord_toNat (op arg : BitVec 4) (data : BitVec 24) :
    (commandWord op arg data).toNat = op.toNat * 2 ^ 28 + arg.toNat * 2 ^ 24 + data.toNat := by
  simp only [commandWord, toNat_append_eq]
  omega

/-- The fields of a step index that is built from its fields (R78). -/
theorem stepIndex_fields (r q p : BitVec 2) :
    (stepIndex r q p).extractLsb' 4 2 = r ∧ (stepIndex r q p).extractLsb' 2 2 = q ∧
      (stepIndex r q p).extractLsb' 0 2 = p := by
  revert r q p
  decide

/-- A step index is its three fields (R78). -/
theorem stepIndex_eta (i : BitVec 6) :
    stepIndex (i.extractLsb' 4 2) (i.extractLsb' 2 2) (i.extractLsb' 0 2) = i := by
  revert i
  decide

end Sys2Proof
end

