-- ==== Sys2Proof/Laws/State.lean ====
section
/-!
SUPPORT. What each named update of the state leaves in each field: one lemma per field per update, true by definition, so
that no proof unfolds a record update.
-/

namespace Sys2Proof.Machine

variable (s : State)


/-! ## accept -/

@[simp] theorem accept_chain : (accept s).chain = s.chain := rfl
@[simp] theorem accept_work : (accept s).work = s.work := rfl
@[simp] theorem accept_count : (accept s).count = s.count := rfl
@[simp] theorem accept_buf : (accept s).buf = s.buf := rfl
@[simp] theorem accept_xbuf : (accept s).xbuf = s.xbuf := rfl
@[simp] theorem accept_digest : (accept s).digest = s.digest := rfl
@[simp] theorem accept_finalized : (accept s).finalized = s.finalized := rfl
@[simp] theorem accept_err : (accept s).err = s.err := rfl
@[simp] theorem accept_seq : (accept s).seq = s.seq := rfl
@[simp] theorem accept_stepCtr : (accept s).stepCtr = s.stepCtr := rfl
@[simp] theorem accept_pending : (accept s).pending = s.pending := rfl
@[simp] theorem accept_resp : (accept s).resp = Config.respWhileInvalid s.freeTick := rfl
@[simp] theorem accept_respValid : (accept s).respValid = false := rfl
@[simp] theorem accept_cmd : (accept s).cmd = s.cmd := rfl
@[simp] theorem accept_cmdValid : (accept s).cmdValid = false := rfl
@[simp] theorem accept_rst : (accept s).rst = s.rst := rfl
@[simp] theorem accept_host : (accept s).host = s.host := rfl
@[simp] theorem accept_secondHost : (accept s).secondHost = s.secondHost := rfl
@[simp] theorem accept_freeTick : (accept s).freeTick = s.freeTick + 1 := rfl
@[simp] theorem accept_transforms : (accept s).transforms = s.transforms := rfl

/-! ## respond -/

@[simp] theorem respond_chain (st : Status) (r : Byte) : (respond st r s).chain = s.chain := rfl
@[simp] theorem respond_work (st : Status) (r : Byte) : (respond st r s).work = s.work := rfl
@[simp] theorem respond_count (st : Status) (r : Byte) : (respond st r s).count = s.count := rfl
@[simp] theorem respond_buf (st : Status) (r : Byte) : (respond st r s).buf = s.buf := rfl
@[simp] theorem respond_xbuf (st : Status) (r : Byte) : (respond st r s).xbuf = s.xbuf := rfl
@[simp] theorem respond_digest (st : Status) (r : Byte) : (respond st r s).digest = s.digest := rfl
@[simp] theorem respond_finalized (st : Status) (r : Byte) : (respond st r s).finalized = s.finalized := rfl
@[simp] theorem respond_err (st : Status) (r : Byte) : (respond st r s).err = s.err := rfl
@[simp] theorem respond_seq (st : Status) (r : Byte) : (respond st r s).seq = .idle := rfl
@[simp] theorem respond_stepCtr (st : Status) (r : Byte) : (respond st r s).stepCtr = s.stepCtr := rfl
@[simp] theorem respond_pending (st : Status) (r : Byte) : (respond st r s).pending = s.pending := rfl
@[simp] theorem respond_resp (st : Status) (r : Byte) : (respond st r s).resp = respWord st r := rfl
@[simp] theorem respond_respValid (st : Status) (r : Byte) : (respond st r s).respValid = true := rfl
@[simp] theorem respond_cmd (st : Status) (r : Byte) : (respond st r s).cmd = s.cmd := rfl
@[simp] theorem respond_cmdValid (st : Status) (r : Byte) : (respond st r s).cmdValid = s.cmdValid := rfl
@[simp] theorem respond_rst (st : Status) (r : Byte) : (respond st r s).rst = s.rst := rfl
@[simp] theorem respond_host (st : Status) (r : Byte) : (respond st r s).host = s.host := rfl
@[simp] theorem respond_secondHost (st : Status) (r : Byte) : (respond st r s).secondHost = s.secondHost := rfl
@[simp] theorem respond_freeTick (st : Status) (r : Byte) : (respond st r s).freeTick = s.freeTick := rfl
@[simp] theorem respond_transforms (st : Status) (r : Byte) : (respond st r s).transforms = s.transforms := rfl

/-! ## raise -/

@[simp] theorem raise_chain (st : Status) : (raise st s).chain = s.chain := rfl
@[simp] theorem raise_work (st : Status) : (raise st s).work = s.work := rfl
@[simp] theorem raise_count (st : Status) : (raise st s).count = s.count := rfl
@[simp] theorem raise_buf (st : Status) : (raise st s).buf = s.buf := rfl
@[simp] theorem raise_xbuf (st : Status) : (raise st s).xbuf = s.xbuf := rfl
@[simp] theorem raise_digest (st : Status) : (raise st s).digest = s.digest := rfl
@[simp] theorem raise_finalized (st : Status) : (raise st s).finalized = s.finalized := rfl
@[simp] theorem raise_err (st : Status) : (raise st s).err = true := rfl
@[simp] theorem raise_seq (st : Status) : (raise st s).seq = .idle := rfl
@[simp] theorem raise_stepCtr (st : Status) : (raise st s).stepCtr = s.stepCtr := rfl
@[simp] theorem raise_pending (st : Status) : (raise st s).pending = s.pending := rfl
@[simp] theorem raise_resp (st : Status) : (raise st s).resp = respWord st 0 := rfl
@[simp] theorem raise_respValid (st : Status) : (raise st s).respValid = true := rfl
@[simp] theorem raise_cmd (st : Status) : (raise st s).cmd = s.cmd := rfl
@[simp] theorem raise_cmdValid (st : Status) : (raise st s).cmdValid = s.cmdValid := rfl
@[simp] theorem raise_rst (st : Status) : (raise st s).rst = s.rst := rfl
@[simp] theorem raise_host (st : Status) : (raise st s).host = s.host := rfl
@[simp] theorem raise_secondHost (st : Status) : (raise st s).secondHost = s.secondHost := rfl
@[simp] theorem raise_freeTick (st : Status) : (raise st s).freeTick = s.freeTick := rfl
@[simp] theorem raise_transforms (st : Status) : (raise st s).transforms = s.transforms := rfl

/-! ## storeByte -/

@[simp] theorem storeByte_chain (v : Byte) : (storeByte v s).chain = s.chain := rfl
@[simp] theorem storeByte_work (v : Byte) : (storeByte v s).work = s.work := rfl
@[simp] theorem storeByte_count (v : Byte) : (storeByte v s).count = s.count + 8 := rfl
@[simp] theorem storeByte_buf (v : Byte) : (storeByte v s).buf = s.buf.set (fillIndex s.count).toNat v (fillIndex s.count).isLt := rfl
@[simp] theorem storeByte_xbuf (v : Byte) : (storeByte v s).xbuf = s.xbuf := rfl
@[simp] theorem storeByte_digest (v : Byte) : (storeByte v s).digest = s.digest := rfl
@[simp] theorem storeByte_finalized (v : Byte) : (storeByte v s).finalized = s.finalized := rfl
@[simp] theorem storeByte_err (v : Byte) : (storeByte v s).err = s.err := rfl
@[simp] theorem storeByte_seq (v : Byte) : (storeByte v s).seq = s.seq := rfl
@[simp] theorem storeByte_stepCtr (v : Byte) : (storeByte v s).stepCtr = s.stepCtr := rfl
@[simp] theorem storeByte_pending (v : Byte) : (storeByte v s).pending = s.pending := rfl
@[simp] theorem storeByte_resp (v : Byte) : (storeByte v s).resp = s.resp := rfl
@[simp] theorem storeByte_respValid (v : Byte) : (storeByte v s).respValid = s.respValid := rfl
@[simp] theorem storeByte_cmd (v : Byte) : (storeByte v s).cmd = s.cmd := rfl
@[simp] theorem storeByte_cmdValid (v : Byte) : (storeByte v s).cmdValid = s.cmdValid := rfl
@[simp] theorem storeByte_rst (v : Byte) : (storeByte v s).rst = s.rst := rfl
@[simp] theorem storeByte_host (v : Byte) : (storeByte v s).host = s.host := rfl
@[simp] theorem storeByte_secondHost (v : Byte) : (storeByte v s).secondHost = s.secondHost := rfl
@[simp] theorem storeByte_freeTick (v : Byte) : (storeByte v s).freeTick = s.freeTick := rfl
@[simp] theorem storeByte_transforms (v : Byte) : (storeByte v s).transforms = s.transforms := rfl

/-! ## startTransform -/

@[simp] theorem startTransform_chain : (startTransform s).chain = s.chain := rfl
@[simp] theorem startTransform_work : (startTransform s).work = s.chain := rfl
@[simp] theorem startTransform_count : (startTransform s).count = s.count := rfl
@[simp] theorem startTransform_buf : (startTransform s).buf = s.buf := rfl
@[simp] theorem startTransform_xbuf : (startTransform s).xbuf = decodeBlock s.buf := rfl
@[simp] theorem startTransform_digest : (startTransform s).digest = s.digest := rfl
@[simp] theorem startTransform_finalized : (startTransform s).finalized = s.finalized := rfl
@[simp] theorem startTransform_err : (startTransform s).err = s.err := rfl
@[simp] theorem startTransform_seq : (startTransform s).seq = .compress s.seq.starter := rfl
@[simp] theorem startTransform_stepCtr : (startTransform s).stepCtr = 0 := rfl
@[simp] theorem startTransform_pending : (startTransform s).pending = s.pending := rfl
@[simp] theorem startTransform_resp : (startTransform s).resp = s.resp := rfl
@[simp] theorem startTransform_respValid : (startTransform s).respValid = s.respValid := rfl
@[simp] theorem startTransform_cmd : (startTransform s).cmd = s.cmd := rfl
@[simp] theorem startTransform_cmdValid : (startTransform s).cmdValid = s.cmdValid := rfl
@[simp] theorem startTransform_rst : (startTransform s).rst = s.rst := rfl
@[simp] theorem startTransform_host : (startTransform s).host = s.host := rfl
@[simp] theorem startTransform_secondHost : (startTransform s).secondHost = s.secondHost := rfl
@[simp] theorem startTransform_freeTick : (startTransform s).freeTick = s.freeTick := rfl
@[simp] theorem startTransform_transforms : (startTransform s).transforms = s.transforms := rfl

/-! ## finishTransform -/

@[simp] theorem finishTransform_chain : (finishTransform s).chain = addQuad s.chain s.work := rfl
@[simp] theorem finishTransform_work : (finishTransform s).work = s.work := rfl
@[simp] theorem finishTransform_count : (finishTransform s).count = s.count := rfl
@[simp] theorem finishTransform_buf : (finishTransform s).buf = zeroBuf := rfl
@[simp] theorem finishTransform_xbuf : (finishTransform s).xbuf = zeroX := rfl
@[simp] theorem finishTransform_digest : (finishTransform s).digest = s.digest := rfl
@[simp] theorem finishTransform_finalized : (finishTransform s).finalized = s.finalized := rfl
@[simp] theorem finishTransform_err : (finishTransform s).err = s.err := rfl
@[simp] theorem finishTransform_seq : (finishTransform s).seq = s.seq.starter.seq := rfl
@[simp] theorem finishTransform_stepCtr : (finishTransform s).stepCtr = 0 := rfl
@[simp] theorem finishTransform_pending : (finishTransform s).pending = s.pending := rfl
@[simp] theorem finishTransform_resp : (finishTransform s).resp = s.resp := rfl
@[simp] theorem finishTransform_respValid : (finishTransform s).respValid = s.respValid := rfl
@[simp] theorem finishTransform_cmd : (finishTransform s).cmd = s.cmd := rfl
@[simp] theorem finishTransform_cmdValid : (finishTransform s).cmdValid = s.cmdValid := rfl
@[simp] theorem finishTransform_rst : (finishTransform s).rst = s.rst := rfl
@[simp] theorem finishTransform_host : (finishTransform s).host = s.host := rfl
@[simp] theorem finishTransform_secondHost : (finishTransform s).secondHost = s.secondHost := rfl
@[simp] theorem finishTransform_freeTick : (finishTransform s).freeTick = s.freeTick := rfl
@[simp] theorem finishTransform_transforms : (finishTransform s).transforms = s.transforms + 1 := rfl

/-! ## freezeDigest -/

@[simp] theorem freezeDigest_chain : (freezeDigest s).chain = s.chain := rfl
@[simp] theorem freezeDigest_work : (freezeDigest s).work = s.work := rfl
@[simp] theorem freezeDigest_count : (freezeDigest s).count = 0 := rfl
@[simp] theorem freezeDigest_buf : (freezeDigest s).buf = zeroBuf := rfl
@[simp] theorem freezeDigest_xbuf : (freezeDigest s).xbuf = s.xbuf := rfl
@[simp] theorem freezeDigest_digest : (freezeDigest s).digest = encodeDigest s.chain := rfl
@[simp] theorem freezeDigest_finalized : (freezeDigest s).finalized = true := rfl
@[simp] theorem freezeDigest_err : (freezeDigest s).err = s.err := rfl
@[simp] theorem freezeDigest_seq : (freezeDigest s).seq = s.seq := rfl
@[simp] theorem freezeDigest_stepCtr : (freezeDigest s).stepCtr = s.stepCtr := rfl
@[simp] theorem freezeDigest_pending : (freezeDigest s).pending = s.pending := rfl
@[simp] theorem freezeDigest_resp : (freezeDigest s).resp = s.resp := rfl
@[simp] theorem freezeDigest_respValid : (freezeDigest s).respValid = s.respValid := rfl
@[simp] theorem freezeDigest_cmd : (freezeDigest s).cmd = s.cmd := rfl
@[simp] theorem freezeDigest_cmdValid : (freezeDigest s).cmdValid = s.cmdValid := rfl
@[simp] theorem freezeDigest_rst : (freezeDigest s).rst = s.rst := rfl
@[simp] theorem freezeDigest_host : (freezeDigest s).host = s.host := rfl
@[simp] theorem freezeDigest_secondHost : (freezeDigest s).secondHost = s.secondHost := rfl
@[simp] theorem freezeDigest_freeTick : (freezeDigest s).freeTick = s.freeTick := rfl
@[simp] theorem freezeDigest_transforms : (freezeDigest s).transforms = s.transforms := rfl

/-! ## hardReset -/

@[simp] theorem hardReset_chain : (hardReset s).chain = State.reset.chain := rfl
@[simp] theorem hardReset_work : (hardReset s).work = State.reset.work := rfl
@[simp] theorem hardReset_count : (hardReset s).count = State.reset.count := rfl
@[simp] theorem hardReset_buf : (hardReset s).buf = State.reset.buf := rfl
@[simp] theorem hardReset_xbuf : (hardReset s).xbuf = State.reset.xbuf := rfl
@[simp] theorem hardReset_digest : (hardReset s).digest = State.reset.digest := rfl
@[simp] theorem hardReset_finalized : (hardReset s).finalized = State.reset.finalized := rfl
@[simp] theorem hardReset_err : (hardReset s).err = State.reset.err := rfl
@[simp] theorem hardReset_seq : (hardReset s).seq = State.reset.seq := rfl
@[simp] theorem hardReset_stepCtr : (hardReset s).stepCtr = State.reset.stepCtr := rfl
@[simp] theorem hardReset_pending : (hardReset s).pending = State.reset.pending := rfl
@[simp] theorem hardReset_resp : (hardReset s).resp = State.reset.resp := rfl
@[simp] theorem hardReset_respValid : (hardReset s).respValid = State.reset.respValid := rfl
@[simp] theorem hardReset_cmd : (hardReset s).cmd = s.cmd := rfl
@[simp] theorem hardReset_cmdValid : (hardReset s).cmdValid = s.cmdValid := rfl
@[simp] theorem hardReset_rst : (hardReset s).rst = s.rst := rfl
@[simp] theorem hardReset_host : (hardReset s).host = s.host := rfl
@[simp] theorem hardReset_secondHost : (hardReset s).secondHost = s.secondHost := rfl
@[simp] theorem hardReset_freeTick : (hardReset s).freeTick = s.freeTick := rfl
@[simp] theorem hardReset_transforms : (hardReset s).transforms = State.reset.transforms := rfl

/-! ## issue -/

@[simp] theorem issue_chain (w : Word) : (s.issue w).chain = s.chain := rfl
@[simp] theorem issue_work (w : Word) : (s.issue w).work = s.work := rfl
@[simp] theorem issue_count (w : Word) : (s.issue w).count = s.count := rfl
@[simp] theorem issue_buf (w : Word) : (s.issue w).buf = s.buf := rfl
@[simp] theorem issue_xbuf (w : Word) : (s.issue w).xbuf = s.xbuf := rfl
@[simp] theorem issue_digest (w : Word) : (s.issue w).digest = s.digest := rfl
@[simp] theorem issue_finalized (w : Word) : (s.issue w).finalized = s.finalized := rfl
@[simp] theorem issue_err (w : Word) : (s.issue w).err = s.err := rfl
@[simp] theorem issue_seq (w : Word) : (s.issue w).seq = s.seq := rfl
@[simp] theorem issue_stepCtr (w : Word) : (s.issue w).stepCtr = s.stepCtr := rfl
@[simp] theorem issue_pending (w : Word) : (s.issue w).pending = s.pending := rfl
@[simp] theorem issue_resp (w : Word) : (s.issue w).resp = s.resp := rfl
@[simp] theorem issue_respValid (w : Word) : (s.issue w).respValid = s.respValid := rfl
@[simp] theorem issue_cmd (w : Word) : (s.issue w).cmd = w := rfl
@[simp] theorem issue_cmdValid (w : Word) : (s.issue w).cmdValid = true := rfl
@[simp] theorem issue_rst (w : Word) : (s.issue w).rst = s.rst := rfl
@[simp] theorem issue_host (w : Word) : (s.issue w).host = s.host := rfl
@[simp] theorem issue_secondHost (w : Word) : (s.issue w).secondHost = s.secondHost := rfl
@[simp] theorem issue_freeTick (w : Word) : (s.issue w).freeTick = s.freeTick := rfl
@[simp] theorem issue_transforms (w : Word) : (s.issue w).transforms = s.transforms := rfl

end Sys2Proof.Machine
end

