-- ==== Sys2Proof/Laws/Ops.lean ====
section
/-!
SUPPORT. What each shared operation does, said once: the transform as one record of the state it leaves, and AppendByte, the
append of several bytes, and the padding sequence over it.
-/

namespace Sys2Proof.Machine

/-! ## The transform -/

/-- A micro-operation before step 63 rewrites the working words and advances STEP, and nothing else. -/
theorem microOp_of_ne (f : Word → Word → Word → Word) (i : BitVec 6) (s : State) (h : i ≠ 63) :
    microOp f i s = { s with work := stepBody f s.xbuf i s.work, stepCtr := i + 1 } := by
  rw [microOp, if_neg h]

/-- The micro-operation of step 63 is followed by the feed-forward. -/
theorem microOp_last (f : Word → Word → Word → Word) (s : State) :
    microOp f 63 s = finishTransform { s with work := stepBody f s.xbuf 63 s.work } := by
  simp [microOp]

/-- Steps run one after another. -/
theorem runMicroOps_add (m n : Nat) (s : State) : runMicroOps (m + n) s = runMicroOps n (runMicroOps m s) := by
  induction m generalizing s with
  | zero => simp [runMicroOps]
  | succ m ih => rw [Nat.succ_add]; exact ih (seqMicroOp s)

/-- `n` steps from STEP = i that do not pass step 63 run R207 on the working words and advance STEP, and nothing else. -/
theorem runMicroOps_eq (n i : Nat) (s : State) (hi : s.stepCtr = BitVec.ofNat 6 i) (h : i + n ≤ 63) :
    runMicroOps n s = { s with work := roundsFrom s.xbuf n i s.work, stepCtr := BitVec.ofNat 6 (i + n) } := by
  induction n generalizing i s with
  | zero => simp [runMicroOps, roundsFrom, ← hi]
  | succ n ih =>
    have hne : BitVec.ofNat 6 i ≠ 63 := by
      intro hc
      have := congrArg BitVec.toNat hc
      simp at this
      omega
    have hstep : seqMicroOp s =
        { s with
          work := stepBody (funSel (roundOf (BitVec.ofNat 6 i))) s.xbuf (BitVec.ofNat 6 i) s.work,
          stepCtr := BitVec.ofNat 6 (i + 1) } := by
      rw [seqMicroOp, hi, microOp_of_ne _ _ _ hne]
      congr 1
      rw [← BitVec.ofNat_add_ofNat]
      rfl
    show runMicroOps n (seqMicroOp s) = _
    rw [hstep, ih (i + 1) _ rfl (by omega)]
    simp only [roundsFrom]
    congr 2
    omega

/-- The rounds run one after another. -/
theorem roundsFrom_add (x : Vector Word 16) (m n i : Nat) (w : Quad) :
    roundsFrom x (m + n) i w = roundsFrom x n (i + m) (roundsFrom x m i w) := by
  induction m generalizing i w with
  | zero => simp [roundsFrom]
  | succ m ih =>
    rw [Nat.succ_add]
    simp only [roundsFrom]
    rw [ih]
    congr 1
    omega

/-- Transform() (R211, R212): the state words become the compression of the block in BUF; BUF and X are zeroed; the working
words hold the values of step 63; STEP is 0; SEQ resumes the state that started it; one more transform has run. Nothing else
changes. -/
theorem transform_eq (s : State) :
    transform s =
      { s with
        chain := compressWords s.chain (decodeBlock s.buf)
        work := roundsFrom (decodeBlock s.buf) 64 0 s.chain
        buf := zeroBuf
        xbuf := zeroX
        stepCtr := 0
        seq := s.seq.starter.seq
        transforms := s.transforms + 1 } := by
  rw [transform, show (64 : Nat) = 63 + 1 from rfl, runMicroOps_add,
    runMicroOps_eq 63 0 _ (by simp) (by omega)]
  simp only [runMicroOps, seqMicroOp]
  rw [show (BitVec.ofNat 6 (0 + 63) : BitVec 6) = 63 from rfl, microOp_last]
  simp only [finishTransform, startTransform, compressWords, roundsFrom, Seq.starter]
  rfl

/-! The transform field by field. -/

@[simp] theorem transform_chain (s : State) : (transform s).chain = compressWords s.chain (decodeBlock s.buf) := by rw [transform_eq]
@[simp] theorem transform_work (s : State) : (transform s).work = roundsFrom (decodeBlock s.buf) 64 0 s.chain := by rw [transform_eq]
@[simp] theorem transform_count (s : State) : (transform s).count = s.count := by rw [transform_eq]
@[simp] theorem transform_buf (s : State) : (transform s).buf = zeroBuf := by rw [transform_eq]
@[simp] theorem transform_xbuf (s : State) : (transform s).xbuf = zeroX := by rw [transform_eq]
@[simp] theorem transform_digest (s : State) : (transform s).digest = s.digest := by rw [transform_eq]
@[simp] theorem transform_finalized (s : State) : (transform s).finalized = s.finalized := by rw [transform_eq]
@[simp] theorem transform_err (s : State) : (transform s).err = s.err := by rw [transform_eq]
@[simp] theorem transform_seq (s : State) : (transform s).seq = s.seq.starter.seq := by rw [transform_eq]
@[simp] theorem transform_stepCtr (s : State) : (transform s).stepCtr = 0 := by rw [transform_eq]
@[simp] theorem transform_pending (s : State) : (transform s).pending = s.pending := by rw [transform_eq]
@[simp] theorem transform_resp (s : State) : (transform s).resp = s.resp := by rw [transform_eq]
@[simp] theorem transform_respValid (s : State) : (transform s).respValid = s.respValid := by rw [transform_eq]
@[simp] theorem transform_cmd (s : State) : (transform s).cmd = s.cmd := by rw [transform_eq]
@[simp] theorem transform_cmdValid (s : State) : (transform s).cmdValid = s.cmdValid := by rw [transform_eq]
@[simp] theorem transform_rst (s : State) : (transform s).rst = s.rst := by rw [transform_eq]
@[simp] theorem transform_host (s : State) : (transform s).host = s.host := by rw [transform_eq]
@[simp] theorem transform_secondHost (s : State) : (transform s).secondHost = s.secondHost := by rw [transform_eq]
@[simp] theorem transform_freeTick (s : State) : (transform s).freeTick = s.freeTick := by rw [transform_eq]
@[simp] theorem transform_transforms (s : State) : (transform s).transforms = s.transforms + 1 := by rw [transform_eq]

/-! ## AppendByte -/

/-- AppendByte of a byte that does not fill the buffer only stores it (R142). -/
theorem appendByte_of_ne (v : Byte) (s : State) (h : fillIndex s.count ≠ 63) : appendByte v s = storeByte v s := by
  rw [appendByte, if_neg h]

/-- AppendByte of the byte that fills the buffer (R142, R143). -/
theorem appendByte_of_eq (v : Byte) (s : State) (h : fillIndex s.count = 63) :
    appendByte v s = transform (storeByte v s) := by
  rw [appendByte, if_pos h]

/-- Bytes are appended one group after another. -/
theorem appendBytes_append (vs ws : List Byte) (s : State) :
    appendBytes (vs ++ ws) s = appendBytes ws (appendBytes vs s) := by
  induction vs generalizing s with
  | nil => rfl
  | cons v vs ih => exact ih (appendByte v s)

/-- Everything AppendByte can do, in one record (R142, R143, R212): COUNT advances by 8, the chaining state, BUF, and the
compression's own registers change, SEQ ends where it was, and nothing else changes. -/
theorem appendByte_eq (v : Byte) (s : State) (hseq : s.seq = .append ∨ s.seq = .pad) :
    appendByte v s =
      { s with
        count := s.count + 8
        chain := (appendByte v s).chain
        work := (appendByte v s).work
        buf := (appendByte v s).buf
        xbuf := (appendByte v s).xbuf
        stepCtr := (appendByte v s).stepCtr
        transforms := (appendByte v s).transforms } := by
  by_cases h : fillIndex s.count = 63
  · rw [appendByte_of_eq v s h, transform_eq]
    rcases hseq with hs | hs <;> simp [hs, Seq.starter, Starter.seq, storeByte]
  · rw [appendByte_of_ne v s h]; rfl

/-- The state fields that no append touches: all but COUNT, the chaining state, BUF and the compression's registers. -/
theorem appendBytes_frame (vs : List Byte) (s : State) (hseq : s.seq = .append ∨ s.seq = .pad) :
    appendBytes vs s =
      { s with
        count := (appendBytes vs s).count
        chain := (appendBytes vs s).chain
        work := (appendBytes vs s).work
        buf := (appendBytes vs s).buf
        xbuf := (appendBytes vs s).xbuf
        stepCtr := (appendBytes vs s).stepCtr
        transforms := (appendBytes vs s).transforms } := by
  induction vs generalizing s with
  | nil => rfl
  | cons v vs ih =>
    have h1 := appendByte_eq v s hseq
    have hs : (appendByte v s).seq = s.seq := by rw [h1]
    have h2 := ih (appendByte v s) (by rw [hs]; exact hseq)
    simp only [appendBytes]
    rw [h2]
    rw [h1]

/-- COUNT after an append of several bytes (R142). -/
theorem appendBytes_count (vs : List Byte) (s : State) :
    (appendBytes vs s).count = s.count + BitVec.ofNat 64 (8 * vs.length) := by
  induction vs generalizing s with
  | nil => simp [appendBytes]
  | cons v vs ih =>
    have hc : (appendByte v s).count = s.count + 8 := by
      unfold appendByte
      split
      · rw [transform_eq]; rfl
      · rfl
    rw [appendBytes, ih, hc, List.length_cons, Nat.mul_succ, BitVec.add_assoc]
    congr 1
    rw [Nat.add_comm, ← BitVec.ofNat_add_ofNat]
    rfl

/-- At rest, with X clear and STEP 0, an append leaves them so (R143, R210). -/
theorem appendBytes_rest (vs : List Byte) (s : State) (hx : s.xbuf = zeroX) (hs : s.stepCtr = 0) :
    (appendBytes vs s).xbuf = zeroX ∧ (appendBytes vs s).stepCtr = 0 := by
  induction vs generalizing s with
  | nil => exact ⟨hx, hs⟩
  | cons v vs ih =>
    apply ih <;>
    · unfold appendByte
      split
      · rw [transform_eq]
      · simpa

end Sys2Proof.Machine
end

