-- ==== Sys2Proof/Laws/Blocks.lean ====
section
/-!
SUPPORT. The block buffer as a list of bytes: what one AppendByte, and an append of many bytes, does to the chaining state,
to the bytes waiting in BUF and to the count of transforms, in terms of the blocks of 64 bytes that fill up.
-/

namespace Sys2Proof.Machine

/-! ## Blocks of a byte string -/

theorem blocksOf_append (n : Nat) (xs ys : List Byte) (h : 64 * n ≤ xs.length) :
    blocksOf n (xs ++ ys) = blocksOf n xs := by
  induction n generalizing xs with
  | zero => rfl
  | succ n ih =>
    simp only [blocksOf]
    rw [List.drop_append_of_le_length (by omega), List.take_append_of_le_length (by omega),
      ih _ (by rw [List.length_drop]; omega)]

theorem blocksOf_add (m n : Nat) (xs : List Byte) :
    blocksOf (m + n) xs = blocksOf m xs ++ blocksOf n (xs.drop (64 * m)) := by
  induction m generalizing xs with
  | zero => simp [blocksOf]
  | succ m ih =>
    rw [Nat.succ_add]
    simp only [blocksOf]
    rw [ih, List.drop_drop, List.cons_append, show 64 + 64 * m = 64 * (m + 1) by omega]

/-- Bytes beyond the blocks that are absorbed do not matter. -/
theorem absorbBlocks_append (n : Nat) (xs ys : List Byte) (c : Quad) (h : 64 * n ≤ xs.length) :
    absorbBlocks n (xs ++ ys) c = absorbBlocks n xs c := by
  rw [absorbBlocks, absorbBlocks, blocksOf_append n xs ys h]

/-- Blocks are absorbed one group after another. -/
theorem absorbBlocks_add (m n : Nat) (xs : List Byte) (c : Quad) :
    absorbBlocks (m + n) xs c = absorbBlocks n (xs.drop (64 * m)) (absorbBlocks m xs c) := by
  rw [absorbBlocks, absorbBlocks, absorbBlocks, blocksOf_add, List.foldl_append]

theorem absorbBlocks_zero (xs : List Byte) (c : Quad) : absorbBlocks 0 xs c = c := rfl

/-- One block exactly. -/
theorem absorbBlocks_one (xs : List Byte) (c : Quad) (h : xs.length = 64) :
    absorbBlocks 1 xs c = compressWords c (blockWords xs) := by
  simp only [absorbBlocks, blocksOf, List.foldl_cons, List.foldl_nil, absorbBlock]
  rw [List.take_of_length_le (by omega)]

/-! ## The fill index and BUF -/

/-- The fill index as a number (R141). -/
theorem fillIndex_toNat (c : BitVec 64) : (fillIndex c).toNat = c.toNat / 8 % 64 :=
  toNat_extractLsb'_eq c 3 6

theorem fillNat_lt (s : State) : fillNat s < 64 := Nat.mod_lt _ (by decide)

/-- The fill index depends on COUNT alone. -/
theorem fillNat_congr {s t : State} (h : s.count = t.count) : fillNat s = fillNat t := by
  rw [fillNat, fillNat, h]

theorem length_bufTail (s : State) : (bufTail s).length = fillNat s := by
  have := fillNat_lt s
  simp only [bufTail, List.length_take, Vector.length_toList]
  omega

/-- The block in BUF as words, read from the buffer as a list (R54, R185). -/
theorem decodeBlock_eq (buf : Vector Byte 64) : decodeBlock buf = blockWords buf.toList := by
  have g : ∀ k, (hk : k < 64) → buf.toList.getD k 0 = buf[k] := by
    intro k hk
    rw [List.getD_eq_getElem?_getD, List.getElem?_eq_getElem (by simpa using hk)]
    simp
  simp only [decodeBlock, blockWords]
  congr 1
  funext j
  simp only [bufWord, blockWord]
  rw [g _ (by omega), g _ (by omega), g _ (by omega), g _ (by omega)]

/-- Storing at the fill index extends the waiting bytes by one. -/
theorem take_succ_set (l : List Byte) (k : Nat) (v : Byte) (h : k < l.length) :
    (l.set k v).take (k + 1) = l.take k ++ [v] := by
  have hk : k < (l.set k v).length := by simpa using h
  rw [List.take_succ_eq_append_getElem hk, List.getElem_set_self, List.take_set_of_le (Nat.le_refl k)]

/-- The fill index after one more byte (R142). -/
theorem fillNat_storeByte (v : Byte) (s : State) : fillNat (storeByte v s) = (fillNat s + 1) % 64 := by
  simp only [fillNat, storeByte_count, BitVec.toNat_add]
  have : (8 : BitVec 64).toNat = 8 := rfl
  omega

/-! ## What an append absorbs -/

/-- `t` is `s` after the bytes `vs`: every 64 bytes of the waiting bytes and `vs` together are compressed once, in order, and
the rest waits in BUF (R142, R143, R151). -/
structure Absorbed (s t : State) (vs : List Byte) : Prop where
  chain : t.chain = absorbBlocks ((bufTail s ++ vs).length / 64) (bufTail s ++ vs) s.chain
  tail : bufTail t = (bufTail s ++ vs).drop (64 * ((bufTail s ++ vs).length / 64))
  transforms : t.transforms = s.transforms + (bufTail s ++ vs).length / 64

theorem absorbed_nil (s : State) : Absorbed s s [] := by
  have h0 : (bufTail s ++ []).length / 64 = 0 := by
    have := fillNat_lt s
    rw [List.append_nil, length_bufTail]
    omega
  refine ⟨?_, ?_, ?_⟩ <;> rw [h0]
  · rfl
  · simp
  · rfl

/-- AppendByte absorbs its byte. -/
theorem appendByte_absorbed (v : Byte) (s : State) : Absorbed s (appendByte v s) [v] := by
  have hl := length_bufTail s
  have hf := fillNat_lt s
  by_cases h : fillIndex s.count = 63
  · have h63 : fillNat s = 63 := by
      have h2 := congrArg BitVec.toNat h
      rwa [fillIndex_toNat] at h2
    have hset : (storeByte v s).buf.toList = bufTail s ++ [v] := by
      have e : (fillIndex s.count).toNat = 63 := by rw [h]; rfl
      simp only [storeByte_buf, Vector.toList_set, e]
      rw [bufTail, h63, ← take_succ_set _ 63 v (by simp), List.take_of_length_le (by simp)]
    have hd : (bufTail s ++ [v]).length = 64 := by rw [List.length_append, hl, h63]; rfl
    rw [appendByte_of_eq _ _ h]
    refine ⟨?_, ?_, ?_⟩ <;> rw [hd]
    · rw [transform_chain, storeByte_chain, show 64 / 64 = 1 from rfl, absorbBlocks_one _ _ hd, decodeBlock_eq, hset]
    · have h0 : fillNat (storeByte v s) = 0 := by rw [fillNat_storeByte, h63]
      have hdrop : (bufTail s ++ [v]).drop (64 * (64 / 64)) = [] := List.drop_of_length_le (by omega)
      rw [hdrop, bufTail, fillNat_congr (transform_count _), h0, List.take_zero]
    · rw [transform_transforms, storeByte_transforms]
  · have hne : fillNat s ≠ 63 := by
      intro hc
      apply h
      apply BitVec.eq_of_toNat_eq
      rw [fillIndex_toNat]
      exact hc
    have hd : (bufTail s ++ [v]).length / 64 = 0 := by
      rw [List.length_append, hl, List.length_singleton]
      omega
    have hfill : fillNat (storeByte v s) = fillNat s + 1 := by
      rw [fillNat_storeByte]
      omega
    rw [appendByte_of_ne _ _ h]
    refine ⟨?_, ?_, ?_⟩ <;> rw [hd]
    · rfl
    · rw [Nat.mul_zero, List.drop_zero, bufTail, hfill]
      simp only [storeByte_buf, Vector.toList_set, fillIndex_toNat]
      exact take_succ_set _ _ _ (by simp; omega)
    · rfl

/-- Appending one group of bytes after another absorbs both. -/
theorem Absorbed.trans {s t u : State} {vs ws : List Byte} (h1 : Absorbed s t vs) (h2 : Absorbed t u ws) :
    Absorbed s u (vs ++ ws) := by
  have e : bufTail s ++ (vs ++ ws) = (bufTail s ++ vs) ++ ws := by rw [List.append_assoc]
  have hm : 64 * ((bufTail s ++ vs).length / 64) ≤ (bufTail s ++ vs).length := by omega
  have hA : bufTail t ++ ws = (bufTail s ++ (vs ++ ws)).drop (64 * ((bufTail s ++ vs).length / 64)) := by
    rw [h1.tail, e, List.drop_append_of_le_length hm]
  have hlen : (bufTail s ++ (vs ++ ws)).length / 64 =
      (bufTail s ++ vs).length / 64 + (bufTail t ++ ws).length / 64 := by
    rw [hA, List.length_drop, e, List.length_append (bs := ws)]
    omega
  refine ⟨?_, ?_, ?_⟩
  · rw [h2.chain, hlen, absorbBlocks_add, ← hA, h1.chain, e, absorbBlocks_append _ (bufTail s ++ vs) ws _ hm]
  · rw [h2.tail, hlen, hA, List.drop_drop]
    congr 1
    omega
  · rw [h2.transforms, hlen, h1.transforms]
    omega

/-- An append of several bytes absorbs them. -/
theorem appendBytes_absorbed (vs : List Byte) (s : State) : Absorbed s (appendBytes vs s) vs := by
  induction vs generalizing s with
  | nil => exact absorbed_nil s
  | cons v vs ih => exact (appendByte_absorbed v s).trans (ih (appendByte v s))

end Sys2Proof.Machine
end

