-- ==== Sys2Proof/Laws/PerInstr.lean ====
section
/-!
SUPPORT. The per-instruction family MatchesTableRow: an instruction's encoding falls under its own row of the opcode table,
and that row belongs to the format the instruction has.
-/

namespace Sys2Proof.Laws.MatchesTableRow

/-- The encoding of `i` is covered by its row; a host command's row is a CMD32 row (R72), a micro-operation's a STEP6 row
(R78). -/
def Statement (i : Instr) : Prop :=
  i.row.covers (encode i).bits = true ∧ (if i.isCommand then i.row ∈ commandRows else i.row ∈ stepRows)

/-- Masking off the low `n` bits of a word. -/
theorem mask_low (w : Word) (n : Nat) : w &&& (BitVec.allOnes 32 <<< n) = (w >>> n) <<< n := by
  apply BitVec.eq_of_getLsbD_eq
  intro i hi
  by_cases h : i < n
  · simp [h]
  · have h1 : n + (i - n) = i := by omega
    have h2 : i - n < 32 := by omega
    simp only [BitVec.getLsbD_and, BitVec.getLsbD_shiftLeft, BitVec.getLsbD_ushiftRight, BitVec.getLsbD_allOnes, hi, h, h1, h2,
      decide_true, decide_false, Bool.not_false, Bool.and_true, Bool.true_and]

/-- A command word is covered by a row whose mask leaves out the low `n` bits and whose pattern is the word with those bits
zero. -/
theorem covers_of_low (name : String) (op arg : BitVec 4) (data : BitVec 24) (n pattern mask : Nat) (hn : n ≤ 24)
    (hd : data.toNat < 2 ^ n) (hm : mask = (BitVec.allOnes 32 <<< n).toNat)
    (hp : pattern = op.toNat * 2 ^ 28 + arg.toNat * 2 ^ 24) :
    (⟨name, 32, pattern, mask⟩ : TableRow).covers (commandWord op arg data).toNat = true := by
  have hdvd : 2 ^ n ∣ pattern := by
    subst hp
    exact Dvd.dvd.add (dvd_mul_of_dvd_right (pow_dvd_pow 2 (by omega)) _) (dvd_mul_of_dvd_right (pow_dvd_pow 2 hn) _)
  obtain ⟨k, hk⟩ := hdvd
  have hw : (commandWord op arg data).toNat = data.toNat + 2 ^ n * k := by rw [commandWord_toNat, ← hk, hp, Nat.add_comm]
  have hlt := (commandWord op arg data).isLt
  have hdiv : (data.toNat + 2 ^ n * k) / 2 ^ n = k := by
    rw [Nat.add_mul_div_left _ _ (by positivity), Nat.div_eq_of_lt hd, Nat.zero_add]
  have key : (commandWord op arg data &&& (BitVec.allOnes 32 <<< n)).toNat = pattern := by
    rw [mask_low, BitVec.toNat_shiftLeft, BitVec.toNat_ushiftRight, Nat.shiftLeft_eq, Nat.shiftRight_eq_div_pow, hw, hdiv,
      Nat.mul_comm, ← hk, Nat.mod_eq_of_lt (by omega)]
  rw [BitVec.toNat_and, ← hm] at key
  simp [TableRow.covers, key]

theorem init : Statement .init := by unfold Statement; decide
theorem update0 : Statement .update0 := by unfold Statement; decide

theorem update1 (m0 : Byte) : Statement (.update1 m0) :=
  ⟨covers_of_low _ 2 1 _ 8 _ _ (by decide) (by simp only [toNat_append_eq]; have := m0.isLt; simp; omega) (by decide)
    (by decide), by simp [Instr.isCommand, Instr.row, commandRows]⟩

theorem update2 (m0 m1 : Byte) : Statement (.update2 m0 m1) :=
  ⟨covers_of_low _ 2 2 _ 16 _ _ (by decide)
    (by simp only [toNat_append_eq]; have := m0.isLt; have := m1.isLt; simp; omega) (by decide) (by decide),
    by simp [Instr.isCommand, Instr.row, commandRows]⟩

theorem update3 (m0 m1 m2 : Byte) : Statement (.update3 m0 m1 m2) :=
  ⟨covers_of_low _ 2 3 _ 24 _ _ (by decide) (BitVec.isLt _) (by decide) (by decide),
    by simp [Instr.isCommand, Instr.row, commandRows]⟩

theorem final : Statement .final := by unfold Statement; decide

theorem rdig (i : BitVec 4) : Statement (.rdig i) :=
  ⟨covers_of_low _ 4 0 _ 4 _ _ (by decide) (by simp only [toNat_append_eq]; have := i.isLt; simp; omega) (by decide)
    (by decide), by simp [Instr.isCommand, Instr.row, commandRows]⟩

theorem rhex (j : BitVec 5) : Statement (.rhex j) :=
  ⟨covers_of_low _ 5 0 _ 5 _ _ (by decide) (by simp only [toNat_append_eq]; have := j.isLt; simp; omega) (by decide)
    (by decide), by simp [Instr.isCommand, Instr.row, commandRows]⟩

theorem rstat : Statement .rstat := by unfold Statement; decide
theorem ff (q p : BitVec 2) : Statement (.ff q p) := by unfold Statement; revert q p; decide
theorem gg (q p : BitVec 2) : Statement (.gg q p) := by unfold Statement; revert q p; decide
theorem hh (q p : BitVec 2) : Statement (.hh q p) := by unfold Statement; revert q p; decide
theorem ii (q p : BitVec 2) : Statement (.ii q p) := by unfold Statement; revert q p; decide

end Sys2Proof.Laws.MatchesTableRow
end

