-- ==== Sys2Proof/Laws/Step.lean ====
section
/-!
SUPPORT. What a step can do, said once: the ways a cycle ends in a next state, the ways a host command does, and the
micro-operation that a busy engine runs.
-/

namespace Sys2Proof

/-- Only host commands decode from a command word (R78). -/
theorem decodeCommand_isCommand {w : Word} {i : Instr} (h : decodeCommand w = .ok i) : i.isCommand = true := by
  unfold decodeCommand decodeUpdate decodeZeroArg at h
  split at h <;> (try split at h) <;> (try split at h) <;> (try contradiction) <;> (injection h with h; subst h; rfl)

end Sys2Proof

namespace Sys2Proof.Machine

/-- An UPDATE absorbs the bytes that its instruction was built from (R102). -/
theorem updateInstr_exec {bytes : List Byte} {i : Instr} (h : updateInstr bytes = some i) (s : State) :
    exec i s = .next (absorb bytes s) := by
  unfold updateInstr at h
  split at h <;> simp at h <;> subst h <;> rfl

/-- An UPDATE carries at most three bytes (R102). -/
theorem updateInstr_length {bytes : List Byte} {i : Instr} (h : updateInstr bytes = some i) : bytes.length ≤ 3 := by
  unfold updateInstr at h
  split at h <;> simp at h <;> simp

/-- The micro-operation that STEP decodes to runs the step body of its round at STEP (R78, R205). -/
theorem exec_decodeStep (i : BitVec 6) (s : State) : exec (decodeStep i) s = .next (microOp (funSel (roundOf i)) i s) := by
  have h1 : stepIndex (roundOf i) (i.extractLsb' 2 2) (i.extractLsb' 0 2) = i := stepIndex_eta i
  unfold decodeStep
  rw [show BitVec.extractLsb' 4 2 i = roundOf i from rfl]
  have hr : ∀ r : BitVec 2, r = 0 ∨ r = 1 ∨ r = 2 ∨ r = 3 := by decide
  generalize roundOf i = r at *
  obtain h0 | h0 | h0 | h0 := hr r
  all_goals
    subst h0
    simp only [exec, execFF, execGG, execHH, execII, funSel]
    show Host.Outcome.next (microOp _ _ s) = _
    rw [h1]
    rfl

/-- The four shapes of a host command's next state: INIT's, UPDATE's, FINAL's, and a read's, which answers with a byte or
with an error (R101 to R106). -/
theorem exec_command_cases {i : Instr} {s t : State} (hc : i.isCommand = true) (h : exec i s = .next t) :
    (i = .init ∧ t = respond .ok 0 { s with chain := iv, count := 0, finalized := false, err := false }) ∨
    (i.isUpdate = true ∧ t = absorb i.messageBytes s) ∨
    (i = .final ∧ t = respond .ok 0 (if s.finalized then s else padAndFinish s)) ∨
    ((∃ k, i = .rdig k) ∨ (∃ j, i = .rhex j)) ∧
      ((∃ b, s.finalized = true ∧ t = respond .ok b s) ∨ (s.finalized = false ∧ t = raise .eNotFinal s)) ∨
    (i = .rstat ∧ t = respond .ok (statusReg s) s) := by
  cases i <;> simp only [Instr.isCommand, Bool.false_eq_true] at hc <;>
    simp only [exec, execInit, execUpdate0, execUpdate1, execUpdate2, execUpdate3, execFinal, execRdig, execRhex, execRstat,
      readDigest, Host.Outcome.next.injEq] at h <;>
    subst h <;> cases hf : s.finalized <;> simp [Instr.isUpdate, Instr.messageBytes] <;> exact ⟨_, rfl⟩

/-- The host's turn: nothing without an event, else the next event is driven and leaves the list (R108, R246). -/
theorem hostTurn_cases (s : State) :
    (s.host = [] ∧ hostTurn s = s) ∨ (∃ e es, s.host = e :: es ∧ hostTurn s = drive e { s with host := es }) := by
  unfold hostTurn
  split
  · exact .inl ⟨‹_›, rfl⟩
  · exact .inr ⟨_, _, ‹_›, rfl⟩

/-- A pause of the host changes only the host's list of events, and drops nothing but a `wait`. -/
theorem hostPause_eq (s : State) : hostPause s = { s with host := (hostPause s).host } := by
  unfold hostPause
  split <;> rfl

/-- The ways a cycle ends in a next state (R31, R32, R100, R107, R246, R260, R261). -/
theorem cycle_cases {start run : Instr → State → Host.Outcome State Fault Refusal} {s t : State}
    (h : cycle start run s = .next t) :
    s.secondHost = false ∧
    ((s.rst = true ∧ t = hostTurn (hardReset s)) ∨
     (s.rst = false ∧ s.seq = .idle ∧ s.cmdValid = false ∧ t = hostTurn s) ∨
     (s.rst = false ∧ s.seq = .idle ∧ s.cmdValid = true ∧
       ((∃ i, decodeCommand s.cmd = .ok i ∧ start i (accept s) = .next t) ∨
        (∃ r, decodeCommand s.cmd = .error r ∧ t = raise .eIllegal (accept s)))) ∨
     (s.rst = false ∧ s.seq ≠ .idle ∧ hostActs s = true ∧ t = hostTurn s) ∨
     (s.rst = false ∧ hostActs s = false ∧
       ((s.seq = .append ∧ t = presentNext finishUpdate (hostPause s)) ∨
        (s.seq = .pad ∧ t = presentNext finishFinal (hostPause s)) ∨
        ((∃ k, s.seq = .compress k) ∧ run (decodeStep (hostPause s).stepCtr) (hostPause s) = .next t)))) := by
  unfold cycle at h
  split at h
  · contradiction
  refine ⟨by simp_all, ?_⟩
  split at h
  · injection h with h; subst h; exact .inl ⟨‹_›, rfl⟩
  · have hr : s.rst = false := by simpa using ‹¬ s.rst = true›
    split at h
    · split at h
      · split at h
        · exact .inr (.inr (.inl ⟨hr, ‹_›, ‹_›, .inl ⟨_, ‹_›, h⟩⟩))
        · injection h with h; exact .inr (.inr (.inl ⟨hr, ‹_›, ‹_›, .inr ⟨_, ‹_›, h.symm⟩⟩))
      · injection h with h; exact .inr (.inl ⟨hr, ‹_›, by simpa using ‹¬ s.cmdValid = true›, h.symm⟩)
    all_goals
      rename_i hq
      unfold besideHost at h
      split at h
      · injection h with h; exact .inr (.inr (.inr (.inl ⟨hr, by simp [hq], ‹_›, h.symm⟩)))
      · refine .inr (.inr (.inr (.inr ⟨hr, by simpa using ‹¬ hostActs s = true›, ?_⟩)))
        first
          | exact .inr (.inr ⟨⟨_, hq⟩, h⟩)
          | (injection h with h; first | exact .inl ⟨hq, h.symm⟩ | exact .inr (.inl ⟨hq, h.symm⟩))

/-- One sequencer step of APPEND or PAD leaves the ports and the flags alone while bytes are left (R142, R209). -/
theorem presentByte_frame (v : Byte) (s : State) :
    presentByte v s =
      { s with
        buf := (storeByte v s).buf, count := s.count + 8, seq := (presentByte v s).seq, xbuf := (presentByte v s).xbuf
        work := (presentByte v s).work, stepCtr := (presentByte v s).stepCtr } := by
  unfold presentByte
  split <;> rfl

end Sys2Proof.Machine
end

