-- ==== Sys2Proof/Machine/System.lean ====
section
/-!
DEFINITION. Several engines in one system (R244): "Each is a separate instance with its own copy of all the state. No state
is shared, and there is no inter-engine signalling or identifier." Which engine moves next is the system's, not the
engines'; assumption log 22.
-/

namespace Sys2Proof.Machine

/-- Engine `k` of the system takes one step; there is nothing to do where there is no such engine. -/
def stepEngine (k : Nat) (engines : List State) : Host.Outcome (List State) Fault Refusal :=
  match engines[k]? with
  | none => .next engines
  | some s =>
    match step s with
    | .next t => .next (engines.set k t)
    | .fault r => .fault r
    | .refused r => .refused r

end Sys2Proof.Machine
end

