-- ==== Sys2Proof/Laws/System.lean ====
section
/-!
SUPPORT. A step of one engine of a system leaves every other engine as it was, and the number of engines (R244).
-/

namespace Sys2Proof.Machine

theorem stepEngine_other {k j : Nat} {engines engines' : List State} (h : stepEngine k engines = .next engines')
    (hj : j ≠ k) : engines'[j]? = engines[j]? ∧ engines'.length = engines.length := by
  unfold stepEngine at h
  split at h
  · injection h with h; subst h; exact ⟨rfl, rfl⟩
  · split at h
    · injection h with h
      subst h
      exact ⟨List.getElem?_set_ne (Ne.symm hj), List.length_set⟩
    · cases h
    · cases h

end Sys2Proof.Machine
end

