-- ==== Sys2Proof/Tests/Slice0.lean ====
section
/-!
SUPPORT. The model's own tests. Expected values are the spec's: the words of 30_encoding.md and the vectors of
95_test_vectors.md, named in each docstring. The last part gives, for every obligation with hypotheses, a concrete state
and operands that meet them.
-/

namespace Sys2Proof.Tests

open Sys2Proof.Machine

/-! ## Helpers -/

/-- The next state, if the outcome is one. -/
def after (o : Host.Outcome State Fault Refusal) : Option State :=
  match o with
  | .next t => some t
  | .fault _ => none
  | .refused _ => none

/-- The reset state after `n` bytes 'a' (0x61), for `n` below 64. -/
def filled (n : Nat) : State :=
  { State.reset with
    count := BitVec.ofNat 64 (8 * n), buf := Vector.ofFn fun k => if k.val < n then 0x61 else 0 }

/-- The reset state after the bytes of "abc". -/
def absorbedAbc : State :=
  { State.reset with count := 24, buf := ((zeroBuf.set 0 0x61).set 1 0x62).set 2 0x63 }

/-- The state after HASH "abc" (V-KAT-2): the spec's "fin". -/
def finished : State :=
  { State.reset with
    chain := ⟨0x98500190, 0xB04FD23C, 0x7D3F96D6, 0x727FE128⟩, finalized := true
    digest := encodeDigest ⟨0x98500190, 0xB04FD23C, 0x7D3F96D6, 0x727FE128⟩ }

/-- An engine at step `i` of the empty message's transform (V-STEP), with the working words given. -/
def compressing (i : BitVec 6) (a b c d : Word) : State :=
  { State.reset with seq := .compress .pad, stepCtr := i, xbuf := zeroX.set 0 0x80, work := ⟨a, b, c, d⟩ }

/-! ## Decoding: a word written out bit by bit for every constructor -/

/-- OP 0001 (R72). -/
theorem test_decode_init : decodeCommand 0b0001_0000_00000000_00000000_00000000 = .ok .init := by decide
/-- OP 0010, n = 0 (R102). -/
theorem test_decode_update0 : decodeCommand 0b0010_0000_00000000_00000000_00000000 = .ok .update0 := by decide
/-- OP 0010, n = 1, lane 0 = 'a' (V-CMD-3). -/
theorem test_decode_update1 : decodeCommand 0b0010_0001_00000000_00000000_01100001 = .ok (.update1 0x61) := by decide
/-- OP 0010, n = 2, lane 1 = 'c', lane 0 = 'b' (P2). -/
theorem test_decode_update2 :
    decodeCommand 0b0010_0010_00000000_01100011_01100010 = .ok (.update2 0x62 0x63) := by decide
/-- OP 0010, n = 3, lanes 'c', 'b', 'a' from the top (V-CMD-4, R81's example). -/
theorem test_decode_update3 :
    decodeCommand 0b0010_0011_01100011_01100010_01100001 = .ok (.update3 0x61 0x62 0x63) := by decide
/-- OP 0011 (R72). -/
theorem test_decode_final : decodeCommand 0b0011_0000_00000000_00000000_00000000 = .ok .final := by decide
/-- OP 0100, i = 10 in DATA[3:0] (R74). -/
theorem test_decode_rdig : decodeCommand 0b0100_0000_00000000_00000000_00001010 = .ok (.rdig 10) := by decide
/-- OP 0101, j = 18 in DATA[4:0] (R74). -/
theorem test_decode_rhex : decodeCommand 0b0101_0000_00000000_00000000_00010010 = .ok (.rhex 18) := by decide
/-- OP 0110 (R72). -/
theorem test_decode_rstat : decodeCommand 0b0110_0000_00000000_00000000_00000000 = .ok .rstat := by decide
/-- STEP = 00 q p (R78). -/
theorem test_decode_ff : decodeStep 0b00_01_10 = .ff 1 2 := by decide
/-- STEP = 01 q p (R78). -/
theorem test_decode_gg : decodeStep 0b01_11_00 = .gg 3 0 := by decide
/-- STEP = 10 q p (R78). -/
theorem test_decode_hh : decodeStep 0b10_00_11 = .hh 0 3 := by decide
/-- STEP = 11 q p (R78). -/
theorem test_decode_ii : decodeStep 0b11_10_01 = .ii 2 1 := by decide

/-- V-ILL-1 to V-ILL-16: the sixteen illegal words are rejected. -/
theorem test_decode_illegal :
    ([0x00000000, 0x70000000, 0x80000000, 0xF0000000, 0x11000000, 0x1000FFFF, 0x24000000, 0x2F000000] ++
      [0x20000001, 0x21000100, 0x22010000, 0x30000001, 0x40000010, 0x4F000000, 0x50000020, 0x60000001] : List Word).all
      (fun w => (decodeCommand w).toOption.isNone) = true := by decide

/-- The boundary words below the V-ILL table are legal. -/
theorem test_decode_legal_boundary :
    decodeCommand 0x4000000F = .ok (.rdig 15) ∧ decodeCommand 0x5000001F = .ok (.rhex 31) ∧
    decodeCommand 0x23FFFFFF = .ok (.update3 0xFF 0xFF 0xFF) ∧ decodeCommand 0x210000FF = .ok (.update1 0xFF) := by decide

/-- The encoder writes V-CMD-4's word, and no command word for a micro-operation (R78). -/
theorem test_encode :
    encodeCommand (.update3 0x61 0x62 0x63) = some 0x23636261 ∧ encodeCommand (.ff 0 0) = none := by decide

/-- decodeTableWord reads a STEP6 row of one byte and a CMD32 row of four, and no more bits than the format has. -/
theorem test_table_words :
    decodeTableWord 8 0x16 = some (.gg 1 2) ∧ decodeTableWord 32 0x22006362 = some (.update2 0x62 0x63) ∧
    decodeTableWord 8 0x40 = none ∧ decodeTableWord 32 0x24000000 = none := by decide

/-- R73: -1 is sent as 0xFF. -/
theorem test_signed_byte : signedByte (-1) = 0xFF ∧ signedByte (-128) = 0x80 ∧ signedByte 127 = 0x7F := by decide

/-! ## WellFormed: an ill-formed term for each check -/

/-- The host cannot issue a micro-operation (R78). -/
theorem test_wf_microop : Instr.programWf [.init, .ff 0 0] = false ∧ Instr.programWf [.init, .final] = true := by decide
/-- UPDATE has at most three operands (R81). -/
theorem test_wf_update_count : (AsmLine.update [1, 2, 3, 4]).wf = false ∧ (AsmLine.update [1, 2, 3]).wf = true := by decide
/-- A byte operand is at most 255 (R81). -/
theorem test_wf_update_byte : (AsmLine.update [256]).wf = false ∧ (AsmLine.update [255]).wf = true := by decide
/-- RDIG's index is at most 15 (R81). -/
theorem test_wf_rdig : (AsmLine.rdig 16).wf = false ∧ (AsmLine.rdig 15).wf = true := by decide
/-- RHEX's index is at most 31 (R81). -/
theorem test_wf_rhex : (AsmLine.rhex 32).wf = false ∧ (AsmLine.rhex 31).wf = true := by decide
/-- A raw word has 32 bits (R81). -/
theorem test_wf_word : (AsmLine.word 4294967296).wf = false ∧ (AsmLine.word 4294967295).wf = true := by decide

/-- R81's example, `UPDATE 'a', 'b', 'c'` is 0x23636261, with a comment after it. -/
theorem test_assemble_text :
    assembleText ['U', 'P', 'D', 'A', 'T', 'E', ' ', '\'', 'a', '\'', ',', ' ', '\'', 'b', '\'', ',', '\'', 'c', '\'', ' ', ';', 'x'] =
      some (some 0x23636261) := by decide +kernel
/-- `.word 0x00000000` (P3) and a blank line; `RDIG 16` is an error. -/
theorem test_assemble_word :
    assembleText ['.', 'w', 'o', 'r', 'd', ' ', '0', 'x', '0', '0'] = some (some 0) ∧ assembleText [' '] = some none ∧
    assembleText ['R', 'D', 'I', 'G', ' ', '1', '6'] = none := by decide +kernel

/-! ## Datapath -/

/-- V-ADD-1 to V-ADD-4. -/
theorem test_add32 :
    add32 0xFFFFFFFF 1 = 0 ∧ add32 0x80000000 0x80000000 = 0 ∧ add32 0x67452301 0xEFCDAB89 = 0x5712CE8A ∧
    add32 0x12345678 0x87654321 = 0x99999999 := by decide
/-- V-ROT-1, 2, 4, 5, 6 and 8. -/
theorem test_rotl32 :
    rotl32 0x80000000 1 = 1 ∧ rotl32 1 31 = 0x80000000 ∧ rotl32 0x12345678 16 = 0x56781234 ∧
    rotl32 0xDEADBEEF 7 = 0x56DF77EF ∧ rotl32 0xDEADBEEF 23 = 0x77EF56DF ∧ rotl32 0 5 = 0 := by decide
/-- The last row of the table of 95_test_vectors.md 2.2. -/
theorem test_mixing :
    mixF 0xFFFF0000 0xFF00FF00 0xF0F0F0F0 = 0xFF00F0F0 ∧ mixG 0xFFFF0000 0xFF00FF00 0xF0F0F0F0 = 0xFFF00F00 ∧
    mixH 0xFFFF0000 0xFF00FF00 0xF0F0F0F0 = 0xF00F0FF0 ∧ mixI 0xFFFF0000 0xFF00FF00 0xF0F0F0F0 = 0x00FFF00F := by decide
/-- V-LE-1 and V-LE-4. -/
theorem test_little_endian :
    wordLE 0x61 0x62 0x63 0x80 = 0x80636261 ∧
    (encodeDigest ⟨0, 0, 0, 0x727FE128⟩).toList.drop 12 = [0x28, 0xe1, 0x7f, 0x72] := by decide
/-- V-LEN-4 and V-LEN-5. -/
theorem test_length_bytes :
    lengthBytes 0x123456789ABCDEF0 = [0xf0, 0xde, 0xbc, 0x9a, 0x78, 0x56, 0x34, 0x12] ∧
    lengthBytes 0xFFFFFFFFFFFFFFF8 = [0xf8, 0xff, 0xff, 0xff, 0xff, 0xff, 0xff, 0xff] := by decide
/-- V-HEX-1 to V-HEX-4. -/
theorem test_hex_char : hexChar 0 = 0x30 ∧ hexChar 9 = 0x39 ∧ hexChar 0xA = 0x61 ∧ hexChar 0xF = 0x66 := by decide
/-- V-PAD-0, 55, 56 and 63: padLen. -/
theorem test_pad_len : padLen 0 = 56 ∧ padLen 55 = 1 ∧ padLen 56 = 64 ∧ padLen 63 = 57 := by decide
/-- V-ROM: three entries of KROM. -/
theorem test_krom : krom 0 = 0xD76AA478 ∧ krom 47 = 0xC4AC5665 ∧ krom 63 = 0xEB86D391 := by decide
/-- The g column of the V-STEP table: steps 15, 16, 31, 32, 47 and 63. -/
theorem test_msg_index :
    msgIndex 15 = 15 ∧ msgIndex 16 = 1 ∧ msgIndex 31 = 12 ∧ msgIndex 32 = 5 ∧ msgIndex 47 = 2 ∧ msgIndex 63 = 9 := by decide

/-! ## One step of each instruction -/

/-- V-CMD-1 from "fin": INIT gives the IV and clears the flags. -/
theorem test_init :
    (after (exec .init finished)).map (fun t => (t.chain, t.finalized, t.resp)) =
      some (⟨0x67452301, 0xEFCDAB89, 0x98BADCFE, 0x10325476⟩, false, 0) := by decide
/-- U15, P3's end: INIT leaves DIGEST as it was. -/
theorem test_init_keeps_digest : (after (exec .init finished)).map (·.digest) = some finished.digest := by decide +kernel
/-- V-CMD-2: the empty update changes nothing. -/
theorem test_update0 :
    (after (exec .update0 State.reset)).map (fun t => (t.count, t.buf, t.resp)) = some (0, zeroBuf, 0) := by decide +kernel
/-- V-CMD-13: the empty update after FINAL is rejected. -/
theorem test_update0_final :
    (after (exec .update0 finished)).map (fun t => (t.resp, t.err)) = some (0x02000000, true) := by decide
/-- V-CMD-3. -/
theorem test_update1 :
    (after (exec (.update1 0x61) State.reset)).map (fun t => (t.count, t.buf.toList.take 2, t.resp)) =
      some (8, [0x61, 0], 0) := by decide +kernel
/-- V-CNT-2: the byte that fills the buffer carries COUNT_LO into COUNT_HI and runs one transform. -/
theorem test_update1_carry :
    (after (exec (.update1 0x41) { filled 63 with count := 0x00000000FFFFFFF8 })).map (fun t => (t.count, t.transforms)) =
      some (0x0000000100000000, 1) := by decide +kernel
/-- V-CNT-5, V-XF-4 and P6: an UPDATE.2 across the block boundary. -/
theorem test_update2 :
    (after (exec (.update2 0x61 0x61) (filled 63))).map (fun t => (t.chain, t.count, t.transforms, t.buf.toList.take 2)) =
      some (⟨0x89D4FF56, 0x125CD962, 0x69CADE33, 0x0033E325⟩, 520, 1, [0x61, 0]) := by decide +kernel
/-- V-CMD-4. -/
theorem test_update3 :
    (after (exec (.update3 0x61 0x62 0x63) State.reset)).map (fun t => (t.count, t.buf.toList.take 4)) =
      some (24, [0x61, 0x62, 0x63, 0]) := by decide +kernel
/-- V-CNT-4: three bytes at fill 62; the third goes to BUF[0]. -/
theorem test_update3_across :
    (after (exec (.update3 1 2 3) (filled 62))).map (fun t => (fillIndex t.count, t.buf.toList.take 2, t.transforms)) =
      some (1, [3, 0], 1) := by decide +kernel
/-- V-KAT-2 and V-XF-2: FINAL after "abc". -/
theorem test_final_abc :
    (after (exec .final absorbedAbc)).map (fun t => (t.chain, t.count, t.finalized, t.transforms)) =
      some (⟨0x98500190, 0xB04FD23C, 0x7D3F96D6, 0x727FE128⟩, 0, true, 1) := by decide +kernel
/-- V-PAD-56 and P4: FINAL with 56 bytes runs two transforms. -/
theorem test_final_two_blocks :
    (after (exec .final (filled 56))).map (fun t => (t.chain, t.digest.toList.take 4, t.transforms)) =
      some (⟨0xC78A0C3B, 0xB028F803, 0x70196C4C, 0x1872D106⟩, [0x3b, 0x0c, 0x8a, 0xc7], 2) := by decide +kernel
/-- V-CMD-8: RDIG 15. -/
theorem test_rdig : (after (exec (.rdig 15) finished)).map (·.resp) = some 0x00000072 := by decide
/-- V-CMD-14: RDIG before FINAL. -/
theorem test_rdig_not_final :
    (after (exec (.rdig 3) State.reset)).map (fun t => (t.resp, t.err)) = some (0x03000000, true) := by decide
/-- V-CMD-9 and V-CMD-10: RHEX 0 and RHEX 31. -/
theorem test_rhex :
    (after (exec (.rhex 0) finished)).map (·.resp) = some 0x00000039 ∧
    (after (exec (.rhex 31) finished)).map (·.resp) = some 0x00000032 := by decide
/-- V-CMD-11. -/
theorem test_rstat : (after (exec .rstat finished)).map (·.resp) = some 0x00000001 := by decide
/-- V-CMD-17: RSTAT with both flags set leaves ERR set. -/
theorem test_rstat_err :
    (after (exec .rstat { finished with err := true })).map (fun t => (t.resp, t.err)) = some (0x00000003, true) := by decide
/-- V-STEP-0. -/
theorem test_ff_step0 :
    (after (exec (.ff 0 0) (compressing 0 0x67452301 0xEFCDAB89 0x98BADCFE 0x10325476))).map (fun t => (t.work, t.stepCtr)) =
      some (⟨0x10325476, 0xA5202774, 0xEFCDAB89, 0x98BADCFE⟩, 1) := by decide +kernel
/-- V-STEP-15. -/
theorem test_ff_step15 :
    (after (exec (.ff 3 3) (compressing 15 0x70768A29 0x5AA53F75 0x374943A7 0xF56C7CF1))).map (·.work) =
      some ⟨0xF56C7CF1, 0xD6819C6A, 0x5AA53F75, 0x374943A7⟩ := by decide +kernel
/-- V-STEP-16. -/
theorem test_gg_step16 :
    (after (exec (.gg 0 0) (compressing 16 0xF56C7CF1 0xD6819C6A 0x5AA53F75 0x374943A7))).map (·.work) =
      some ⟨0x374943A7, 0x1C7D7513, 0xD6819C6A, 0x5AA53F75⟩ := by decide +kernel
/-- V-STEP-31. -/
theorem test_gg_step31 :
    (after (exec (.gg 3 3) (compressing 31 0xA0572807 0x1C31C384 0xAE7813DB 0x13707036))).map (·.work) =
      some ⟨0x13707036, 0xA2205F1F, 0x1C31C384, 0xAE7813DB⟩ := by decide +kernel
/-- V-STEP-32. -/
theorem test_hh_step32 :
    (after (exec (.hh 0 0) (compressing 32 0x13707036 0xA2205F1F 0x1C31C384 0xAE7813DB))).map (·.work) =
      some ⟨0xAE7813DB, 0xDF63EAA1, 0xA2205F1F, 0x1C31C384⟩ := by decide +kernel
/-- V-STEP-47: the flagged constant KROM[47]. -/
theorem test_hh_step47 :
    (after (exec (.hh 3 3) (compressing 47 0x0FE32453 0x68D84EA2 0x22A31F54 0x3F55EDFD))).map (·.work) =
      some ⟨0x3F55EDFD, 0xCA7D2DBD, 0x68D84EA2, 0x22A31F54⟩ := by decide +kernel
/-- V-STEP-48. -/
theorem test_ii_step48 :
    (after (exec (.ii 0 0) (compressing 48 0x3F55EDFD 0xCA7D2DBD 0x68D84EA2 0x22A31F54))).map (·.work) =
      some ⟨0x22A31F54, 0x93AA2577, 0xCA7D2DBD, 0x68D84EA2⟩ := by decide +kernel
/-- V-STEP-63 and V-XF-1: the last step, its feed-forward into the IV and its cleanup. -/
theorem test_ii_step63 :
    (after (exec (.ii 3 3) (compressing 63 0x30130182 0xFF4EA3EB 0x6E10A476 0x7246FAD3))).map
      (fun t => (t.work, t.chain, t.seq, t.xbuf)) =
      some (⟨0x7246FAD3, 0x14E45506, 0xFF4EA3EB, 0x6E10A476⟩, ⟨0xD98C1DD4, 0x04B2008F, 0x980980E9, 0x7E42F8EC⟩, .pad, zeroX) := by
  decide +kernel

/-- V-CMD-18: an illegal word after FINAL gets E_ILLEGAL, not E_FINALIZED, and V-ILL: it changes nothing but ERR. -/
theorem test_illegal_priority :
    (after (step (finished.issue 0x24000000))).map (fun t => (t.resp, t.err, t.finalized, t.digest)) =
      some (0x01000000, true, true, finished.digest) := by decide +kernel
/-- The step after reset runs the placed word: FINAL of the empty message (V-CMD-5, V-KAT-1). -/
theorem test_step_final_from_reset :
    (after (step (State.reset.withFetchWord 32 0x30000000))).map (·.digest.toList) =
      some [0xd4, 0x1d, 0x8c, 0xd9, 0x8f, 0x00, 0xb2, 0x04, 0xe9, 0x80, 0x09, 0x98, 0xec, 0xf8, 0x42, 0x7e] := by decide +kernel
/-- A placed step index runs its micro-operation. -/
theorem test_step_microop_from_reset : (after (step (State.reset.withFetchWord 8 0x16))).map (·.stepCtr) = some 0x17 := by
  decide +kernel
/-- At the micro-sequence level an accepted FINAL only starts (R11, R32): not READY, no response, SEQ = PAD. -/
theorem test_micro_final_starts :
    (after (microStep (State.reset.issue 0x30000000))).map (fun t => (t.ready, t.respValid, t.seq, t.pending.length)) =
      some (false, false, .pad, 64) := by decide +kernel
/-- The digest function of the model on the empty message (V-KAT-1), and V-KAT-1's string. -/
theorem test_md5_empty : (md5 []).toList.take 4 = [0xd4, 0x1d, 0x8c, 0xd9] ∧ (hexString (md5 [])).take 4 = [0x64, 0x34, 0x31, 0x64] := by
  decide +kernel

/-- V-KAT-3: "The quick brown fox jumps over the lazy dog". -/
theorem test_md5_fox :
    (md5 ([0x54, 0x68, 0x65, 0x20, 0x71, 0x75, 0x69, 0x63, 0x6b, 0x20, 0x62, 0x72, 0x6f, 0x77, 0x6e] ++
      [0x20, 0x66, 0x6f, 0x78, 0x20, 0x6a, 0x75, 0x6d, 0x70, 0x73, 0x20, 0x6f, 0x76, 0x65, 0x72] ++
      [0x20, 0x74, 0x68, 0x65, 0x20, 0x6c, 0x61, 0x7a, 0x79, 0x20, 0x64, 0x6f, 0x67])).toList =
      [0x9e, 0x10, 0x7d, 0x9d, 0x37, 0x2b, 0xb6, 0x82, 0x6b, 0xd8, 0x1d, 0x35, 0x42, 0xa4, 0x19, 0xd6] := by decide +kernel

/-! ## Witnesses: for every obligation with hypotheses, values that meet them -/

theorem boundary_reset : Boundary State.reset := ⟨rfl, rfl, rfl⟩
theorem boundary_finished : Boundary finished := ⟨rfl, rfl, rfl⟩
theorem boundary_filled (n : Nat) : Boundary (filled n) := ⟨rfl, rfl, rfl⟩

/-- EncodeInvertsDecode: a command word and a step index that decode. -/
theorem witness_EncodeInvertsDecode :
    decode (.cmd32 0x23636261) = .ok (.update3 0x61 0x62 0x63) ∧ decode (.step6 0b111111) = .ok (.ii 3 3) := by decide

/-- TableRowsCoverTheLegalWords: a row that covers a word, at the top of an operand's range; and a word no row covers. -/
theorem witness_TableRowsCoverTheLegalWords :
    (∃ r ∈ commandRows, r.covers (0x5000001F : Word).toNat = true) ∧
    (commandRows.any fun r => r.covers (0x50000020 : Word).toNat) = false := by decide

/-- IllegalWordGrounds: each of the three grounds, where they meet. -/
theorem witness_IllegalWordGrounds :
    decodeCommand 0x7FFFFFFF = .error .unassignedOp ∧ decodeCommand 0x24000000 = .error .updateCount ∧
    decodeCommand 0x22010000 = .error .reservedNotZero ∧ decodeCommand 0x40000010 = .error .reservedNotZero ∧
    decodeCommand 0x50000020 = .error .reservedNotZero ∧ decodeCommand 0x61000000 = .error .reservedNotZero := by decide

/-- StepRunsDecodedCommand. -/
theorem witness_StepRunsDecodedCommand :
    Boundary (State.reset.issue 0x21000061) ∧ (State.reset.issue 0x21000061).cmdValid = true ∧
    decodeCommand (State.reset.issue 0x21000061).cmd = .ok (.update1 0x61) := ⟨⟨rfl, rfl, rfl⟩, rfl, by decide⟩

/-- StepRunsDecodedMicroOp, with no event of the host and with a wait. -/
theorem witness_StepRunsDecodedMicroOp :
    (∃ s : State, s.seq = .compress .pad ∧ s.rst = false ∧ s.secondHost = false ∧ s.host = []) ∧
    (∃ s : State, s.seq = .compress .pad ∧ s.rst = false ∧ s.secondHost = false ∧ s.host = .wait :: []) :=
  ⟨⟨compressing 63 1 2 3 4, rfl, rfl, rfl, rfl⟩, ⟨{ compressing 63 1 2 3 4 with host := [.wait] }, rfl, rfl, rfl, rfl⟩⟩

/-- IllegalWordSetsOnlyErr, before and after FINAL. -/
theorem witness_IllegalWordSetsOnlyErr :
    (Boundary (State.reset.issue 0) ∧ (State.reset.issue 0).cmdValid = true ∧
      decodeCommand (State.reset.issue 0).cmd = .error .unassignedOp) ∧
    (Boundary (finished.issue 0x24000000) ∧ (finished.issue 0x24000000).cmdValid = true ∧
      decodeCommand (finished.issue 0x24000000).cmd = .error .updateCount) :=
  ⟨⟨⟨rfl, rfl, rfl⟩, rfl, by decide⟩, ⟨rfl, rfl, rfl⟩, rfl, by decide⟩

/-- IdleEngineHoldsItsState. -/
theorem witness_IdleEngineHoldsItsState : Boundary State.reset ∧ State.reset.cmdValid = false ∧ State.reset.host = [] :=
  ⟨boundary_reset, rfl, rfl⟩

/-- TwoHostsAreRefused. -/
theorem witness_TwoHostsAreRefused : ({ State.reset with secondHost := true } : State).secondHost = true := rfl

/-- BusyEngineHoldsTheCommand: an engine in APPEND whose last byte fills the buffer, with a command waiting and another
behind it. -/
theorem witness_BusyEngineHoldsTheCommand :
    ∃ s t : State, s.seq ≠ .idle ∧ s.rst = false ∧ s.cmdValid = true ∧ step s = .next t ∧ microStep s = .next t ∧
      s.host = .issue 0x10000000 :: [] ∧ t.seq = .compress .append :=
  ⟨{ (filled 63).issue 0x30000000 with seq := .append, pending := [0x61], host := [.issue 0x10000000] }, _, by decide, rfl,
    rfl, rfl, rfl, rfl, by decide +kernel⟩

/-- ResetAbandonsTheCommand: inside a transform, inside APPEND and inside PAD. -/
theorem witness_ResetAbandonsTheCommand :
    ∀ q ∈ [Seq.compress .pad, .append, .pad],
      ∃ s : State, s.seq = q ∧ s.seq ≠ .idle ∧ s.rst = false ∧ s.secondHost = false ∧
        s.host = .assertReset :: [.releaseReset] := by
  intro q hq
  refine ⟨{ compressing 5 1 2 3 4 with seq := q, host := [.assertReset, .releaseReset] }, rfl, ?_, rfl, rfl, rfl⟩
  revert q
  decide

/-- QueuedCommandsRunInOrder. -/
theorem witness_QueuedCommandsRunInOrder :
    ∃ s : State, Boundary s ∧ s.cmdValid = false ∧ s.host = [0x10000000, 0x20000000].map .issue :=
  ⟨{ State.reset with host := [.issue 0x10000000, .issue 0x20000000] }, ⟨rfl, rfl, rfl⟩, rfl, rfl⟩

/-- UpdateStoresWithinTheBlock, for every UPDATE at the largest fill index at which it stays within the block. -/
theorem witness_UpdateStoresWithinTheBlock :
    (updateInstr [1, 2, 3] = some (.update3 1 2 3) ∧ (filled 60).finalized = false ∧ fillNat (filled 60) + 3 < 64) ∧
    (updateInstr [1, 2] = some (.update2 1 2) ∧ (filled 61).finalized = false ∧ fillNat (filled 61) + 2 < 64) ∧
    (updateInstr [1] = some (.update1 1) ∧ (filled 62).finalized = false ∧ fillNat (filled 62) + 1 < 64) ∧
    (updateInstr [] = some .update0 ∧ (filled 63).finalized = false ∧ fillNat (filled 63) + 0 < 64) := by decide

/-- UpdateCompressesAFullBlock, for every UPDATE with bytes at the smallest fill index at which it fills the block, and at
fill index 63. -/
theorem witness_UpdateCompressesAFullBlock :
    (updateInstr [1, 2, 3] = some (.update3 1 2 3) ∧ (filled 61).finalized = false ∧ 64 ≤ fillNat (filled 61) + 3) ∧
    (updateInstr [1, 2] = some (.update2 1 2) ∧ (filled 62).finalized = false ∧ 64 ≤ fillNat (filled 62) + 2) ∧
    (updateInstr [1] = some (.update1 1) ∧ (filled 63).finalized = false ∧ 64 ≤ fillNat (filled 63) + 1) ∧
    (updateInstr [1, 2, 3] = some (.update3 1 2 3) ∧ 64 ≤ fillNat (filled 63) + 3) := by decide

/-- UpdateAfterFinalIsRejected and SecondFinalChangesNothing. -/
theorem witness_UpdateAfterFinalIsRejected :
    updateInstr [] = some .update0 ∧ updateInstr [1, 2, 3] = some (.update3 1 2 3) ∧ finished.finalized = true := by decide

theorem witness_SecondFinalChangesNothing : finished.finalized = true := rfl

/-- FinalPadsAndFreezesTheDigest: the last fill index with one block, the first with two. -/
theorem witness_FinalPadsAndFreezesTheDigest :
    ((filled 55).finalized = false ∧ fillNat (filled 55) = 55) ∧ ((filled 56).finalized = false ∧ fillNat (filled 56) = 56) := by
  decide

/-- PaddingReachesFiftySix: the clauses meet at 55 and 56. -/
theorem witness_PaddingReachesFiftySix :
    ((55 : BitVec 6).toNat < 56 ∧ padLen 55 = 56 - 55) ∧ (56 ≤ (56 : BitVec 6).toNat ∧ padLen 56 = 120 - 56) := by decide

/-- CounterCarriesIntoTheHighWord has no hypothesis; the carry does occur (V-CNT-2, V-CNT-3). -/
theorem witness_CounterCarriesIntoTheHighWord :
    (countLo 0x00000000FFFFFFF8).toNat + 8 = 2 ^ 32 ∧ (0x00000000FFFFFFF8 + 8 : BitVec 64) = 0x0000000100000000 ∧
    (0xFFFFFFFFFFFFFFF8 + 8 : BitVec 64) = 0 := by decide

/-- RdigReturnsTheDigestByte and RhexReturnsTheHexCharacter. -/
theorem witness_RdigReturnsTheDigestByte : finished.finalized = true := rfl

theorem witness_RhexReturnsTheHexCharacter : finished.finalized = true := rfl

/-- ReadBeforeFinalIsRejected. -/
theorem witness_ReadBeforeFinalIsRejected : State.reset.finalized = false := rfl

/-- RepeatedReadsAnswerAlike: reads that answer OK and reads that fail. -/
theorem witness_RepeatedReadsAnswerAlike :
    (∃ t u, exec (.rdig 15) finished = .next t ∧ exec (.rdig 15) t = .next u) ∧
    (∃ t u, exec (.rhex 31) State.reset = .next t ∧ exec (.rhex 31) t = .next u) ∧
    (∃ t u, exec .rstat State.reset = .next t ∧ exec .rstat t = .next u) :=
  ⟨⟨_, _, rfl, rfl⟩, ⟨_, _, rfl, rfl⟩, ⟨_, _, rfl, rfl⟩⟩

/-- RotatorMovesEveryBit: the top bit and the largest amount; the smallest amount that is not 0. -/
theorem witness_RotatorMovesEveryBit : (31 < 32 ∧ (rotl32 1 31).getLsbD 31 = true) ∧ (1 : BitVec 5) ≠ 0 := by decide

/-- MixingTruthTables: the top bit position. -/
theorem witness_MixingTruthTables : 31 < 32 ∧ (mixI 0 0 0).getLsbD 31 = true := by decide

/-- SchedulesArePermutations: step 63 has round 3 and index 9. -/
theorem witness_SchedulesArePermutations : roundOf 63 = 3 ∧ msgIndex 63 = 9 := by decide

/-- IIStepResult: steps 62 and 63. -/
theorem witness_IIStepResult :
    48 + 4 * (3 : BitVec 2).toNat + (2 : BitVec 2).toNat ≠ 63 ∧ 48 + 4 * (3 : BitVec 2).toNat + (3 : BitVec 2).toNat = 63 := by
  decide

/-- FixedSlotViewAgrees: all sixteen groups. -/
theorem witness_FixedSlotViewAgrees : 16 ≤ 16 := Nat.le_refl 16

/-- EveryCommandAnswers: a command of each operand shape. -/
theorem witness_EveryCommandAnswers :
    Instr.init.isCommand = true ∧ (Instr.update3 1 2 3).isCommand = true ∧ (Instr.rhex 31).isCommand = true := by decide

/-- ErrorsArePrecise: both errors that a legal command can get. -/
theorem witness_ErrorsArePrecise :
    (∃ t, exec (.rdig 0) State.reset = .next t ∧ respStatus t.resp ≠ 0) ∧
    (∃ t, exec (.update1 0x64) finished = .next t ∧ respStatus t.resp ≠ 0) :=
  ⟨⟨_, rfl, by decide⟩, ⟨_, rfl, by decide⟩⟩

/-- ErrorsArePrecise, over words: an illegal word and a rejected one. -/
theorem witness_ErrorsArePrecise_words :
    (∃ t, Boundary State.reset ∧ runCommand 0 State.reset = some t ∧ respStatus t.resp ≠ 0) ∧
    (∃ t, Boundary finished ∧ runCommand 0x20000000 finished = some t ∧ respStatus t.resp ≠ 0) :=
  ⟨⟨_, boundary_reset, rfl, by decide⟩, ⟨_, boundary_finished, rfl, by decide⟩⟩

/-- ErrIsSticky: an INIT and another word; ERR cleared by INIT, by RST as it is asserted, and clear when it is deasserted. -/
theorem witness_ErrIsSticky :
    (∃ t, runCommand 0x10000000 { finished with err := true } = some t ∧ decodeCommand 0x10000000 = .ok .init) ∧
    (∃ t, runCommand 0x60000000 { finished with err := true } = some t ∧ decodeCommand 0x60000000 ≠ .ok .init) :=
  ⟨⟨_, rfl, by decide⟩, ⟨_, rfl, by decide⟩⟩

theorem witness_ErrIsSticky_steps :
    (∃ s t : State, step s = .next t ∧ s.err = true ∧ t.err = false ∧ s.seq = .idle ∧ s.cmdValid = true) ∧
    (∃ s t : State, step s = .next t ∧ s.err = true ∧ t.err = false ∧ s.host.head? = some .assertReset) ∧
    (∃ s t : State, step s = .next t ∧ s.err = true ∧ t.err = false ∧ s.rst = true ∧ t.rst = false) :=
  ⟨⟨({ finished with err := true } : State).issue 0x10000000, _, rfl, rfl, rfl, rfl, rfl⟩,
   ⟨{ finished with err := true, host := [.assertReset] }, _, rfl, rfl, rfl, rfl⟩,
   ⟨{ finished with err := true, rst := true, host := [.releaseReset] }, _, rfl, rfl, rfl, rfl, rfl⟩⟩

/-- EveryWordCompletes, InitErasesThePast and DigestReadSequences: command boundaries before and after FINAL. -/
theorem witness_EveryWordCompletes : Boundary State.reset ∧ Boundary finished := ⟨boundary_reset, boundary_finished⟩

theorem witness_InitErasesThePast : Boundary State.reset ∧ Boundary (filled 63) := ⟨boundary_reset, boundary_filled 63⟩

theorem witness_DigestReadSequences :
    (Boundary finished ∧ finished.finalized = true) ∧ (Boundary State.reset ∧ State.reset.finalized = false) :=
  ⟨⟨boundary_finished, rfl⟩, boundary_reset, rfl⟩

/-- The state after HASH "abc" has the invariant. -/
theorem inv_finished : EngineInv finished where
  countBytes := by decide
  finalCount _ := rfl
  finalBuf _ := rfl
  finalDigest _ := rfl
  busyNotFinal h := absurd rfl h
  busyNoResp h := absurd rfl h
  idlePending _ := rfl
  restStep _ := rfl
  restX _ := rfl
  resetNoResp _ := rfl
  respForm h := by cases h

/-- The invariant looks only at the fields that a waiting command word does not touch. -/
theorem inv_issue {s : State} (w : Word) (h : EngineInv s) : EngineInv (s.issue w) :=
  ⟨h.countBytes, h.finalCount, h.finalBuf, h.finalDigest, h.busyNotFinal, h.busyNoResp, h.idlePending, h.restStep, h.restX,
    h.resetNoResp, h.respForm⟩

/-- An engine inside the empty message's transform has the invariant. -/
theorem inv_compressing (i : BitVec 6) (a b c d : Word) : EngineInv (compressing i a b c d) where
  countBytes := by show (0 : BitVec 64).extractLsb' 0 3 = 0; decide
  finalCount h := by cases h
  finalBuf h := by cases h
  finalDigest h := by cases h
  busyNotFinal _ := rfl
  busyNoResp _ := rfl
  idlePending h := by cases h
  restStep h := absurd rfl (h .pad)
  restX h := absurd rfl (h .pad)
  resetNoResp _ := rfl
  respForm h := by cases h

/-- DigestIsImmutableWhileFinalized: a rejected update, and an INIT. -/
theorem witness_DigestIsImmutableWhileFinalized :
    (∃ s t, EngineInv s ∧ noResetNext s ∧ s.finalized = true ∧ step s = .next t ∧ t.finalized = true) ∧
    (∃ s t, EngineInv s ∧ noResetNext s ∧ s.finalized = true ∧ step s = .next t ∧ t.finalized = false) :=
  ⟨⟨finished.issue 0x21000064, _, inv_issue _ inv_finished, ⟨rfl, by decide⟩, rfl, rfl, rfl⟩,
   ⟨finished.issue 0x10000000, _, inv_issue _ inv_finished, ⟨rfl, by decide⟩, rfl, rfl, rfl⟩⟩

/-- OnlyInitAndFeedForwardWriteTheState: an INIT that changes A..D, and a last step whose feed-forward does. -/
theorem witness_OnlyInitAndFeedForwardWriteTheState :
    (∃ s t, noResetNext s ∧ step s = .next t ∧ t.chain ≠ s.chain) ∧
    (∃ s t, noResetNext s ∧ step s = .next t ∧ t.chain ≠ s.chain) :=
  ⟨⟨finished.issue 0x10000000, _, ⟨rfl, by decide⟩, rfl, by decide⟩,
   ⟨compressing 63 1 2 3 4, _, ⟨rfl, by decide⟩, rfl, by decide +kernel⟩⟩

/-- ResetFromAnyState: RST asserted inside a transform, held and released. -/
theorem witness_ResetFromAnyState :
    (∃ s t : State, s.seq = .compress .pad ∧ s.rst = true ∧ s.secondHost = false ∧ step s = .next t ∧ t.rst = true) ∧
    (∃ s t : State, s.seq = .compress .pad ∧ s.rst = true ∧ s.secondHost = false ∧ s.host.head? = some .releaseReset ∧
      step s = .next t ∧ t.rst = false) :=
  ⟨⟨{ compressing 5 1 2 3 4 with rst := true }, _, rfl, rfl, rfl, rfl, rfl⟩,
   ⟨{ compressing 5 1 2 3 4 with rst := true, host := [.releaseReset] }, _, rfl, rfl, rfl, rfl, rfl, rfl⟩⟩

/-- ResetAbandonsTheCommand, inside a reset: a held RST with a word waiting, and a word issued meanwhile (log 23). -/
theorem witness_ResetAbandonsTheCommand_inside :
    (∃ s : State, s.rst = true ∧ s.secondHost = false ∧ s.cmdValid = true ∧ ∀ w es, s.host ≠ .issue w :: es) ∧
    (∃ s : State, s.rst = true ∧ s.secondHost = false ∧ s.cmdValid = true ∧ s.host = [.issue 0x10000000]) :=
  ⟨⟨{ State.reset.issue 0x30000000 with rst := true }, rfl, rfl, rfl, fun _ _ h => by cases h⟩,
   ⟨{ State.reset.issue 0x30000000 with rst := true, host := [.issue 0x10000000] }, rfl, rfl, rfl, rfl⟩⟩

/-- UpdateBytesExpansion: the last command of four bytes. -/
theorem witness_UpdateBytesExpansion :
    1 < (updateBytes [1, 2, 3, 4]).length ∧ (updateBytes [1, 2, 3, 4])[1]? = some (.update1 4) := by decide

/-- StepKeepsTheInvariant: a command, and a step inside a transform. -/
theorem witness_StepKeepsTheInvariant :
    (∃ s t, EngineInv s ∧ step s = .next t ∧ t.respValid = true) ∧
    (∃ s t, EngineInv s ∧ step s = .next t ∧ t.stepCtr = 6) :=
  ⟨⟨finished.issue 0x4000000F, _, inv_issue _ inv_finished, rfl, rfl⟩,
   ⟨compressing 5 1 2 3 4, _, inv_compressing 5 1 2 3 4, rfl, by decide +kernel⟩⟩

/-- MicroStepKeepsTheInvariant: the same, at the micro-sequence level. -/
theorem witness_MicroStepKeepsTheInvariant :
    (∃ s t, EngineInv s ∧ microStep s = .next t ∧ t.respValid = true) ∧
    (∃ s t, EngineInv s ∧ microStep s = .next t ∧ t.stepCtr = 6) :=
  ⟨⟨finished.issue 0x4000000F, _, inv_issue _ inv_finished, rfl, rfl⟩,
   ⟨compressing 5 1 2 3 4, _, inv_compressing 5 1 2 3 4, rfl, by decide +kernel⟩⟩

/-- MicroSequenceRefinesTheCommand. -/
theorem witness_MicroSequenceRefinesTheCommand :
    ∃ s t, Boundary s ∧ s.pending = [] ∧ s.host = [] ∧ s.cmdValid = true ∧ step s = .next t :=
  ⟨State.reset.issue 0x10000000, _, ⟨rfl, rfl, rfl⟩, rfl, rfl, rfl, rfl⟩

/-- HashRunComputesTheDigest: P2's updates, from a used engine. -/
theorem witness_HashRunComputesTheDigest :
    Boundary finished ∧ [.update0, .update1 0x61, .update0, .update2 0x62 0x63].all Instr.isUpdate = true :=
  ⟨boundary_finished, by decide⟩

/-- HashGivesTheHexDigest. -/
theorem witness_HashGivesTheHexDigest : Boundary finished := boundary_finished

/-- IncrementalEquivalence: "abc" in one update and split as in V-PROP-1. -/
theorem witness_IncrementalEquivalence :
    Boundary State.reset ∧ State.reset.finalized = false ∧
    [.update0, .update1 0x61, .update0, .update2 0x62 0x63].all Instr.isUpdate = true ∧
    [.update3 0x61 0x62 0x63].all Instr.isUpdate = true ∧
    messageOf [.update0, .update1 0x61, .update0, .update2 0x62 0x63] = messageOf [.update3 0x61 0x62 0x63] :=
  ⟨boundary_reset, rfl, by decide, by decide, by decide⟩

/-- HiddenStateIsUnobservable: two states that differ in the working words, in BUF and in DIGEST, not readable. -/
theorem witness_HiddenStateIsUnobservable :
    ∃ s t : State, s ≠ t ∧ Boundary s ∧ Boundary t ∧ HostEqual s t :=
  ⟨State.reset, { State.reset with work := ⟨1, 2, 3, 4⟩, buf := zeroBuf.set 63 7, digest := zeroDigest.set 0 9 }, by decide +kernel,
    boundary_reset, ⟨rfl, rfl, rfl⟩, ⟨rfl, rfl, rfl, rfl, by decide +kernel, by decide⟩⟩

/-- AssemblerNeverTruncates: a line of each kind, each operand at the top of its range, and one out of range. -/
theorem witness_AssemblerNeverTruncates :
    assembleLine .init = some 0x10000000 ∧ assembleLine (.update [255, 255, 255]) = some 0x23FFFFFF ∧
    assembleLine .final = some 0x30000000 ∧ assembleLine (.rdig 15) = some 0x4000000F ∧
    assembleLine (.rhex 31) = some 0x5000001F ∧ assembleLine .rstat = some 0x60000000 ∧
    assembleLine (.word 0xFFFFFFFF) = some 0xFFFFFFFF ∧ assembleLine (.update [256]) = none := by decide

end Sys2Proof.Tests
end

section
/-!
PROOF. The invariant of the engine's state (R35) under each operation that a step of either level is made of, and under a
cycle whose commands keep it (O51).
-/

namespace Sys2Proof.Machine

variable {s : State}

/-! ## A state ready to respond -/

/-- What the invariant says of a state apart from SEQ and the response port, as it stands when a command responds: nothing is
pending, no transform is in progress, RST is deasserted. -/
structure Settled (s : State) : Prop where
  countBytes : s.count.extractLsb' 0 3 = 0
  finalCount : s.finalized = true → s.count = 0
  finalBuf : s.finalized = true → s.buf = zeroBuf
  finalDigest : s.finalized = true → s.digest = encodeDigest s.chain
  nonePending : s.pending = []
  stepZero : s.stepCtr = 0
  xZero : s.xbuf = zeroX
  noReset : s.rst = false

/-- Outside a transform, a state that keeps the invariant is settled once nothing is pending. -/
theorem EngineInv.settled (h : EngineInv s) (hq : ∀ k, s.seq ≠ .compress k) (hp : s.pending = []) (hr : s.rst = false) :
    Settled s :=
  ⟨h.countBytes, h.finalCount, h.finalBuf, h.finalDigest, hp, h.restStep hq, h.restX hq, hr⟩

/-- A response from a settled state keeps the invariant (R76, R77). -/
theorem Settled.respond (h : Settled s) {st : Status} {r : Byte} (hform : st ≠ .ok → r = 0) :
    EngineInv (respond st r s) where
  countBytes := h.countBytes
  finalCount := h.finalCount
  finalBuf := h.finalBuf
  finalDigest := h.finalDigest
  busyNotFinal hq := absurd rfl hq
  busyNoResp hq := absurd rfl hq
  idlePending _ := h.nonePending
  restStep _ := h.stepZero
  restX _ := h.xZero
  resetNoResp hr := absurd hr (by simp [h.noReset])
  respForm _ := ⟨st, r, rfl, hform⟩

/-- ERR is no part of the invariant. -/
theorem EngineInv.withErr (h : EngineInv s) (e : Bool) : EngineInv { s with err := e } := by
  cases h
  constructor <;> assumption

/-- An error from a settled state keeps the invariant (R233). -/
theorem Settled.raise (h : Settled s) (st : Status) : EngineInv (raise st s) :=
  (h.respond fun _ => rfl).withErr true

/-- A read of the digest keeps the invariant, answered or rejected (R104, R105, R235). -/
theorem Settled.readDigest (h : Settled s) (b : Byte) : EngineInv (readDigest b s) := by
  unfold Machine.readDigest
  split
  · exact h.respond (absurd rfl)
  · exact h.raise _

/-- INIT's new message is a settled state (R101). -/
theorem Settled.newMessage (h : Settled s) :
    Settled { s with chain := iv, count := 0, finalized := false, err := false } :=
  ⟨rfl, nofun, nofun, nofun, h.nonePending, h.stepZero, h.xZero, h.noReset⟩

/-- The end of the padding sequence leaves a settled state (R152, R153). -/
theorem Settled.freezeDigest (h : Settled s) : Settled (freezeDigest s) :=
  ⟨rfl, fun _ => rfl, fun _ => rfl, fun _ => rfl, h.nonePending, h.stepZero, h.xZero, h.noReset⟩

/-- The start of a sequence of appends, in APPEND or PAD, keeps the invariant (R102, R103). -/
theorem Settled.begin (h : Settled s) {q : Seq} (hq : q ≠ .idle) (hf : s.finalized = false) (hv : s.respValid = false)
    (bytes : List Byte) : EngineInv { s with seq := q, pending := bytes } where
  countBytes := h.countBytes
  finalCount := h.finalCount
  finalBuf := h.finalBuf
  finalDigest := h.finalDigest
  busyNotFinal _ := hf
  busyNoResp _ := hv
  idlePending hi := absurd hi hq
  restStep _ := h.stepZero
  restX _ := h.xZero
  resetNoResp _ := hv
  respForm hr := absurd hr (by simp [hv])

/-! ## The ports, the host and hardware reset -/

/-- The command port and the host's list are no part of the invariant. -/
theorem EngineInv.withPort (h : EngineInv s) (w : Word) (v : Bool) (es : List HostEvent) :
    EngineInv { s with cmd := w, cmdValid := v, host := es } := by
  cases h
  constructor <;> assumption

/-- Accepting a command keeps the invariant (R32, R100). -/
theorem EngineInv.accept (h : EngineInv s) : EngineInv (accept s) :=
  ⟨h.countBytes, h.finalCount, h.finalBuf, h.finalDigest, h.busyNotFinal, fun _ => rfl, h.idlePending, h.restStep, h.restX,
    fun _ => rfl, nofun⟩

/-- Hardware reset establishes the invariant from any state, whatever RST is then (R260). -/
theorem engineInv_hardReset (s : State) (r : Bool) : EngineInv { hardReset s with rst := r } :=
  ⟨rfl, nofun, nofun, nofun, fun hq => absurd rfl hq, fun _ => rfl, fun _ => rfl,
    fun _ => rfl, fun _ => rfl, fun _ => rfl, nofun⟩

/-- Deasserting RST keeps the invariant. -/
theorem EngineInv.releaseReset (h : EngineInv s) : EngineInv { s with rst := false } :=
  ⟨h.countBytes, h.finalCount, h.finalBuf, h.finalDigest, h.busyNotFinal, h.busyNoResp, h.idlePending, h.restStep, h.restX,
    nofun, h.respForm⟩

/-- Every event of the host keeps the invariant (R108, R261). -/
theorem EngineInv.drive (h : EngineInv s) (e : HostEvent) : EngineInv (drive e s) := by
  cases e with
  | issue w => exact h.withPort w true s.host
  | wait => exact h
  | assertReset => exact engineInv_hardReset s true
  | releaseReset => exact h.releaseReset

/-- The host's turn keeps the invariant. -/
theorem EngineInv.hostTurn (h : EngineInv s) : EngineInv (hostTurn s) := by
  obtain ⟨-, ht⟩ | ⟨e, es, -, ht⟩ := hostTurn_cases s
  · rwa [ht]
  · rw [ht]
    exact (h.withPort s.cmd s.cmdValid es).drive e

/-- A pause of the host keeps the invariant. -/
theorem EngineInv.hostPause (h : EngineInv s) : EngineInv (hostPause s) := by
  rw [hostPause_eq]
  exact h.withPort s.cmd s.cmdValid _

theorem hostPause_seq (s : State) : (hostPause s).seq = s.seq := by rw [hostPause_eq]

theorem hostPause_rst (s : State) : (hostPause s).rst = s.rst := by rw [hostPause_eq]

/-! ## The sequencer -/

/-- A count of whole bytes still counts whole bytes after one more (R141, R142). -/
theorem countBytes_add_eight {c : BitVec 64} (h : c.extractLsb' 0 3 = 0) : (c + 8).extractLsb' 0 3 = 0 := by
  have h8 := congrArg BitVec.toNat h
  apply BitVec.eq_of_toNat_eq
  rw [toNat_extractLsb'_eq] at h8 ⊢
  rw [BitVec.toNat_add, show (8 : BitVec 64).toNat = 8 from rfl]
  rw [show (0 : BitVec 3).toNat = 0 from rfl] at h8 ⊢
  omega

/-- The bytes that a busy engine has still to present are no part of the invariant. -/
theorem EngineInv.withPending (h : EngineInv s) (hq : s.seq ≠ .idle) (vs : List Byte) :
    EngineInv { s with pending := vs } :=
  ⟨h.countBytes, h.finalCount, h.finalBuf, h.finalDigest, h.busyNotFinal, h.busyNoResp, fun hi => absurd hi hq, h.restStep,
    h.restX, h.resetNoResp, h.respForm⟩

/-- Storing a byte keeps the invariant in a busy engine, which is not finalized (R142). -/
theorem EngineInv.storeByte (h : EngineInv s) (hq : s.seq ≠ .idle) (v : Byte) : EngineInv (storeByte v s) where
  countBytes := countBytes_add_eight h.countBytes
  finalCount hf := absurd hf (by simp [h.busyNotFinal hq])
  finalBuf hf := absurd hf (by simp [h.busyNotFinal hq])
  finalDigest := h.finalDigest
  busyNotFinal := h.busyNotFinal
  busyNoResp := h.busyNoResp
  idlePending := h.idlePending
  restStep := h.restStep
  restX := h.restX
  resetNoResp := h.resetNoResp
  respForm := h.respForm

/-- The start of a transform keeps the invariant in a busy engine (R209). -/
theorem EngineInv.startTransform (h : EngineInv s) (hq : s.seq ≠ .idle) : EngineInv (startTransform s) where
  countBytes := h.countBytes
  finalCount := h.finalCount
  finalBuf := h.finalBuf
  finalDigest := h.finalDigest
  busyNotFinal _ := h.busyNotFinal hq
  busyNoResp _ := h.busyNoResp hq
  idlePending := nofun
  restStep hc := absurd rfl (hc s.seq.starter)
  restX hc := absurd rfl (hc s.seq.starter)
  resetNoResp := h.resetNoResp
  respForm := h.respForm

/-- The next byte presented keeps the invariant, whether or not it starts a transform (R142, R143). -/
theorem EngineInv.presentByte (h : EngineInv s) (hq : s.seq ≠ .idle) (v : Byte) : EngineInv (presentByte v s) := by
  unfold Machine.presentByte
  split
  · exact (h.storeByte hq v).startTransform hq
  · exact h.storeByte hq v

/-- A sequencer step of APPEND or PAD keeps the invariant when the command's end does, which finds a settled state. -/
theorem EngineInv.presentNext (h : EngineInv s) (hq : s.seq = .append ∨ s.seq = .pad) (hr : s.rst = false)
    {finish : State → State} (hfinish : ∀ {u : State}, Settled u → EngineInv (finish u)) :
    EngineInv (presentNext finish s) := by
  have hbusy : s.seq ≠ .idle := by rcases hq with hq | hq <;> simp [hq]
  have hrest : ∀ k, s.seq ≠ .compress k := by rcases hq with hq | hq <;> simp [hq]
  unfold Machine.presentNext
  split
  · exact hfinish (h.settled hrest ‹_› hr)
  case h_2 v vs _ => exact (h.withPending hbusy vs).presentByte hbusy v

/-- A step of a transform before its last keeps the invariant (R207). -/
theorem EngineInv.withWork (h : EngineInv s) {k : Starter} (hq : s.seq = .compress k) (w : Quad) (i : BitVec 6) :
    EngineInv { s with work := w, stepCtr := i } :=
  ⟨h.countBytes, h.finalCount, h.finalBuf, h.finalDigest, h.busyNotFinal, h.busyNoResp, h.idlePending,
    fun hc => absurd hq (hc k), h.restX, h.resetNoResp, h.respForm⟩

/-- The feed-forward and cleanup keep the invariant: X and STEP are clear when SEQ resumes APPEND or PAD (R210). -/
theorem EngineInv.finishTransform (h : EngineInv s) (hq : s.seq ≠ .idle) : EngineInv (finishTransform s) where
  countBytes := h.countBytes
  finalCount := h.finalCount
  finalBuf _ := rfl
  finalDigest hf := absurd hf (by simp [h.busyNotFinal hq])
  busyNotFinal _ := h.busyNotFinal hq
  busyNoResp _ := h.busyNoResp hq
  idlePending hi := absurd hi (by rw [finishTransform_seq]; cases s.seq.starter <;> simp [Starter.seq])
  restStep _ := rfl
  restX _ := rfl
  resetNoResp := h.resetNoResp
  respForm := h.respForm

/-- Every micro-operation of a transform keeps the invariant (R207, R210). -/
theorem EngineInv.microOp (h : EngineInv s) {k : Starter} (hq : s.seq = .compress k) (f : Word → Word → Word → Word)
    (i : BitVec 6) : EngineInv (microOp f i s) := by
  by_cases hi : i = 63
  · subst hi
    rw [microOp_last]
    exact (h.withWork hq _ s.stepCtr).finishTransform (by simp [hq])
  · rw [microOp_of_ne _ _ _ hi]
    exact h.withWork hq _ _

/-! ## Commands and the cycle -/

/-- What accepting a host command starts at the micro-sequence level (R11): an UPDATE's or FINAL's sequence; any other
command runs at once. -/
theorem beginCommand_cases {i : Instr} (hc : i.isCommand = true) (s : State) :
    (i.isUpdate = true ∧ beginCommand i s = .next (beginUpdate i.messageBytes s)) ∨
    (i = .final ∧ beginCommand i s = .next (beginFinal s)) ∨
    (i.isUpdate = false ∧ i ≠ .final ∧ beginCommand i s = exec i s) := by
  cases i <;> simp_all [Instr.isCommand, Instr.isUpdate, Instr.messageBytes, beginCommand]

/-- The start of an UPDATE keeps the invariant (R102, R234). -/
theorem Settled.beginUpdate (h : Settled s) (hv : s.respValid = false) (bytes : List Byte) :
    EngineInv (beginUpdate bytes s) := by
  unfold Machine.beginUpdate
  split
  · exact h.raise _
  · exact h.begin (by simp) (by simpa using ‹¬ s.finalized = true›) hv bytes

/-- The start of a FINAL keeps the invariant (R103). -/
theorem Settled.beginFinal (h : Settled s) (hv : s.respValid = false) : EngineInv (beginFinal s) := by
  unfold Machine.beginFinal
  split
  · exact h.respond (absurd rfl)
  · exact h.begin (by simp) (by simpa using ‹¬ s.finalized = true›) hv _

/-- INIT and the reads keep the invariant (R101, R104 to R106). -/
theorem Settled.exec_of_atOnce (h : Settled s) {i : Instr} {t : State} (hc : i.isCommand = true)
    (hu : i.isUpdate = false) (hf : i ≠ .final) (he : exec i s = .next t) : EngineInv t := by
  obtain ⟨-, rfl⟩ | ⟨hu', -⟩ | ⟨hf', -⟩ | ⟨-, ⟨b, -, rfl⟩ | ⟨-, rfl⟩⟩ | ⟨-, rfl⟩ := exec_command_cases hc he
  · exact h.newMessage.respond (absurd rfl)
  · simp [hu] at hu'
  · exact absurd hf' hf
  · exact h.respond (absurd rfl)
  · exact h.raise _
  · exact h.respond (absurd rfl)

/-- What a command starts at the micro-sequence level keeps the invariant. -/
theorem Settled.beginCommand (h : Settled s) (hv : s.respValid = false) {i : Instr} {t : State} (hc : i.isCommand = true)
    (hb : beginCommand i s = .next t) : EngineInv t := by
  obtain ⟨-, he⟩ | ⟨-, he⟩ | ⟨hu, hf, he⟩ := beginCommand_cases hc s <;> rw [he] at hb
  · cases hb
    exact h.beginUpdate hv _
  · cases hb
    exact h.beginFinal hv
  · exact h.exec_of_atOnce hc hu hf hb

/-- A cycle keeps the invariant when what an accepted command starts does, from a settled state that shows no response. Both
levels are such cycles (R11). -/
theorem EngineInv.cycle {start : Instr → State → Host.Outcome State Fault Refusal}
    (hstart : ∀ {i : Instr} {u t : State}, Settled u → u.respValid = false → i.isCommand = true → start i u = .next t →
      EngineInv t)
    {t : State} (h : EngineInv s) (hs : cycle start exec s = .next t) : EngineInv t := by
  obtain ⟨-, ⟨-, rfl⟩ | ⟨-, -, -, rfl⟩ | ⟨hr, hq, -, hcmd⟩ | ⟨-, -, -, rfl⟩ | ⟨hr, -, hbusy⟩⟩ := cycle_cases hs
  case inl => exact (engineInv_hardReset s s.rst).hostTurn
  case inr.inl => exact h.hostTurn
  case inr.inr.inl =>
    have hset : Settled (Machine.accept s) := h.accept.settled (by simp [hq]) (h.idlePending hq) hr
    obtain ⟨i, hd, hi⟩ | ⟨-, -, rfl⟩ := hcmd
    · exact hstart hset rfl (decodeCommand_isCommand hd) hi
    · exact hset.raise _
  case inr.inr.inr.inl => exact h.hostTurn
  case inr.inr.inr.inr =>
    rw [← hostPause_rst] at hr
    simp only [← hostPause_seq s] at hbusy
    obtain ⟨hq, rfl⟩ | ⟨hq, rfl⟩ | ⟨⟨k, hq⟩, hrun⟩ := hbusy
    · exact h.hostPause.presentNext (.inl hq) hr fun hu => hu.respond (absurd rfl)
    · exact h.hostPause.presentNext (.inr hq) hr fun hu => hu.freezeDigest.respond (absurd rfl)
    · rw [exec_decodeStep] at hrun
      cases hrun
      exact h.hostPause.microOp hq _ _

/-- Settles O51: both levels run the same cycle, and what the micro-sequence level starts keeps the invariant. -/
theorem microStepKeepsTheInvariant : Obligations.MicroStepKeepsTheInvariant := by
  unfold Obligations.MicroStepKeepsTheInvariant
  intro s t h hs
  exact h.cycle (fun hu hv hc hb => hu.beginCommand hv hc hb) hs

end Sys2Proof.Machine
end

section
/-!
PROOF. The micro-sequence of a command (R11 (2), R31) as a run of quiet steps, none of them READY or with a response, and
its end in the state of the command level (O52).
-/

namespace Sys2Proof.Machine

/-! ## A command word accepted -/

/-- At a command boundary a legal word is accepted and started, at either level (R100). -/
theorem cycle_of_decode {start run : Instr → State → Host.Outcome State Fault Refusal} {s : State} {i : Instr}
    (hb : Boundary s) (hv : s.cmdValid = true) (hd : decodeCommand s.cmd = .ok i) :
    cycle start run s = start i (accept s) := by
  simp [cycle, hb.oneHost, hb.noReset, hb.idle, hv, hd]

/-- At a command boundary an illegal word is answered at once, at either level (R107). -/
theorem cycle_of_illegal {start run : Instr → State → Host.Outcome State Fault Refusal} {s : State} {r : IllegalReason}
    (hb : Boundary s) (hv : s.cmdValid = true) (hd : decodeCommand s.cmd = .error r) :
    cycle start run s = .next (raise .eIllegal (accept s)) := by
  simp [cycle, hb.oneHost, hb.noReset, hb.idle, hv, hd]

/-! ## Quiet runs -/

/-- Inside a command, out of reset, driven by one host that has no event, with no response shown. -/
structure Running (s : State) : Prop where
  busy : s.seq ≠ .idle
  noReset : s.rst = false
  oneHost : s.secondHost = false
  noEvent : s.host = []
  noResp : s.respValid = false

/-- `n` micro-steps lead from `s` to `t`, every one of them taken inside a command. -/
inductive QuietRun : Nat → State → State → Prop
  | refl (s : State) : QuietRun 0 s s
  | step {n : Nat} {s u t : State} : Running s → microStep s = .next u → QuietRun n u t → QuietRun (n + 1) s t

/-- Quiet runs compose. -/
theorem QuietRun.trans {m n : Nat} {s t u : State} (h1 : QuietRun m s t) (h2 : QuietRun n t u) :
    QuietRun (m + n) s u := by
  induction h1 with
  | refl s => rwa [Nat.zero_add]
  | step hr hs _ ih =>
    rw [Nat.succ_add]
    exact .step hr hs (ih h2)

theorem runMicro_succ {s u : State} (h : microStep s = .next u) (n : Nat) : runMicro (n + 1) s = runMicro n u := by
  rw [runMicro, h]

/-- A quiet run is a run at the micro-sequence level, and before its end the engine is not READY and shows no response. -/
theorem QuietRun.runMicro {n : Nat} {s t : State} (h : QuietRun n s t) :
    runMicro n s = .next t ∧ ∀ k < n, ∃ u, runMicro k s = .next u ∧ u.ready = false ∧ u.respValid = false := by
  induction h with
  | refl s => exact ⟨rfl, fun k hk => absurd hk (Nat.not_lt_zero k)⟩
  | step hr hs _ ih =>
    refine ⟨by rw [runMicro_succ hs, ih.1], fun k hk => ?_⟩
    cases k with
    | zero => exact ⟨_, rfl, by simp [State.ready, hr.busy], hr.noResp⟩
    | succ k =>
      rw [runMicro_succ hs]
      exact ih.2 k (by omega)

/-! ## One micro-step inside a command -/

/-- The end of the command whose bytes are presented in APPEND or PAD. -/
def Starter.finish : Starter → State → State
  | .append => finishUpdate
  | .pad => finishFinal

theorem Starter.seq_cases (k : Starter) : k.seq = .append ∨ k.seq = .pad := by
  cases k <;> simp [Starter.seq]

/-- In APPEND and PAD the micro-step presents the next byte or ends the command (R102, R148). -/
theorem microStep_present {s : State} (hr : Running s) (k : Starter) (hq : s.seq = k.seq) :
    microStep s = .next (presentNext k.finish s) := by
  cases k <;>
    simp [microStep, cycle, besideHost, hostActs, hostPause, hr.noReset, hr.oneHost, hr.noEvent, hq, Starter.seq,
      Starter.finish]

/-- In COMPRESS the micro-step runs the micro-operation that STEP selects (R78, R205). -/
theorem microStep_compress {s : State} (hr : Running s) {k : Starter} (hq : s.seq = .compress k) :
    microStep s = .next (seqMicroOp s) := by
  simp only [microStep, cycle, besideHost, hostActs, hostPause, hr.noReset, hr.oneHost, hr.noEvent, hq, exec_decodeStep,
    seqMicroOp, Bool.false_eq_true, if_false]

/-! ## A transform, an append, a whole sequence -/

/-- Steps of a transform, up to and with step 63, are a quiet run. -/
theorem quietRun_microOps {k : Starter} (n i : Nat) {s : State} (hr : Running s) (hq : s.seq = .compress k)
    (hi : s.stepCtr = BitVec.ofNat 6 i) (h : i + n ≤ 64) : QuietRun n s (runMicroOps n s) := by
  induction n generalizing i s with
  | zero => exact .refl s
  | succ n ih =>
    refine .step hr (microStep_compress hr hq) ?_
    by_cases hn : n = 0
    · subst hn
      exact .refl _
    · have hstep : seqMicroOp s = _ := runMicroOps_eq 1 i s hi (by omega)
      rw [runMicroOps, hstep]
      exact ih (i + 1) ⟨hr.busy, hr.noReset, hr.oneHost, hr.noEvent, hr.noResp⟩ hq rfl (by omega)

/-- No append reads or writes the bytes that are still to present. -/
theorem appendByte_withPending (v : Byte) (s : State) (vs : List Byte) :
    appendByte v { s with pending := vs } = { appendByte v s with pending := vs } := by
  by_cases h : fillIndex s.count = 63
  · rw [appendByte_of_eq v s h, appendByte_of_eq v { s with pending := vs } h, transform_eq, transform_eq]
    rfl
  · rw [appendByte_of_ne v s h, appendByte_of_ne v { s with pending := vs } h]
    rfl

/-- An append stays inside its command. -/
theorem Running.appendByte {s : State} (hr : Running s) {k : Starter} (hq : s.seq = k.seq) (v : Byte) :
    Running (appendByte v s) := by
  rw [appendByte_eq v s (by rw [hq]; exact k.seq_cases)]
  exact ⟨hr.busy, hr.noReset, hr.oneHost, hr.noEvent, hr.noResp⟩

/-- Presenting one byte is a quiet run to AppendByte's state: one step, and 64 more when a transform runs (R142, R143). -/
theorem quietRun_presentByte {s : State} (hr : Running s) {k : Starter} (hq : s.seq = k.seq) (v : Byte)
    (vs : List Byte) :
    ∃ n, n + 64 * s.transforms = 1 + 64 * (appendByte v s).transforms ∧
      QuietRun n { s with pending := v :: vs } { appendByte v s with pending := vs } := by
  have hr' (p : List Byte) : Running { s with pending := p } :=
    ⟨hr.busy, hr.noReset, hr.oneHost, hr.noEvent, hr.noResp⟩
  have hfirst : microStep { s with pending := v :: vs } = .next (presentByte v { s with pending := vs }) :=
    microStep_present (hr' _) k hq
  rw [← appendByte_withPending]
  by_cases h : fillIndex s.count = 63
  · have hrun : QuietRun 64 (startTransform (storeByte v { s with pending := vs }))
        (transform (storeByte v { s with pending := vs })) :=
      quietRun_microOps 64 0 ⟨by simp, hr.noReset, hr.oneHost, hr.noEvent, hr.noResp⟩ rfl rfl (by omega)
    refine ⟨64 + 1, ?_, .step (hr' _) hfirst ?_⟩
    · rw [appendByte_of_eq v s h, transform_transforms, storeByte_transforms]
      omega
    · rwa [presentByte, if_pos h, appendByte_of_eq v { s with pending := vs } h]
  · refine ⟨0 + 1, ?_, .step (hr' _) hfirst ?_⟩
    · rw [appendByte_of_ne v s h, storeByte_transforms]
    · rw [presentByte, if_neg h, appendByte_of_ne v { s with pending := vs } h]
      exact .refl _

/-- Presenting the bytes of a command is a quiet run to the state of the whole append. -/
theorem quietRun_appendBytes {k : Starter} (vs : List Byte) {s : State} (hr : Running s) (hq : s.seq = k.seq)
    (hp : s.pending = []) :
    ∃ n, n + 64 * s.transforms = vs.length + 64 * (appendBytes vs s).transforms ∧
      QuietRun n { s with pending := vs } (appendBytes vs s) := by
  induction vs generalizing s with
  | nil =>
    refine ⟨0, by simp [appendBytes], ?_⟩
    show QuietRun 0 { s with pending := [] } s
    rw [← hp]
    exact .refl s
  | cons v vs ih =>
    have hframe := appendByte_eq v s (by rw [hq]; exact k.seq_cases)
    obtain ⟨m, hm, hrun⟩ := quietRun_presentByte hr hq v vs
    obtain ⟨n, hn, hrest⟩ := ih (hr.appendByte hq v) (by rw [hframe]; exact hq) (by rw [hframe]; exact hp)
    refine ⟨m + n, ?_, hrun.trans hrest⟩
    rw [appendBytes, List.length_cons]
    omega

/-- A whole sequence, from its start to the end of the command, with its exact number of steps: one for each byte, 64 for
each transform, and one for the end. -/
theorem quietRun_sequence (k : Starter) (vs : List Byte) {s : State} (hr : Running s) (hq : s.seq = k.seq)
    (hp : s.pending = []) :
    QuietRun (vs.length + 64 * ((fillNat s + vs.length) / 64) + 1) { s with pending := vs }
      (k.finish (appendBytes vs s)) := by
  obtain ⟨n, hn, hrun⟩ := quietRun_appendBytes vs hr hq hp
  have habs := (appendBytes_absorbed vs s).transforms
  rw [List.length_append, length_bufTail] at habs
  have hframe := appendBytes_frame vs s (by rw [hq]; exact k.seq_cases)
  have hrunning : Running (appendBytes vs s) := by
    rw [hframe]
    exact ⟨hr.busy, hr.noReset, hr.oneHost, hr.noEvent, hr.noResp⟩
  have hlast : microStep (appendBytes vs s) = .next (k.finish (appendBytes vs s)) := by
    rw [microStep_present hrunning k (by rw [hframe]; exact hq), presentNext, show (appendBytes vs s).pending = [] by
      rw [hframe]; exact hp]
  rw [show vs.length + 64 * ((fillNat s + vs.length) / 64) = n by omega]
  exact hrun.trans (.step hrunning hlast (.refl _))

/-! ## The refinement -/

/-- The micro-sequence leads from `s` to `t` in at most 202 steps, and inside it the engine is not READY and shows no
response. -/
def MicroRefines (s t : State) : Prop :=
  ∃ n, 0 < n ∧ n ≤ 202 ∧ runMicro n s = .next t ∧
    ∀ k, 0 < k → k < n → ∃ u, runMicro k s = .next u ∧ u.ready = false ∧ u.respValid = false

/-- A command with no sequence of its own is one micro-step. -/
theorem microRefines_of_microStep {s t : State} (h : microStep s = .next t) : MicroRefines s t :=
  ⟨1, by omega, by omega, runMicro_succ h 0, fun k h0 h1 => by omega⟩

/-- A command that starts a quiet run of at most 201 steps. -/
theorem microRefines_of_quietRun {n : Nat} {s u t : State} (h : microStep s = .next u) (hrun : QuietRun n u t)
    (hn : n ≤ 201) : MicroRefines s t := by
  obtain ⟨hend, hquiet⟩ := hrun.runMicro
  refine ⟨n + 1, by omega, by omega, by rw [runMicro_succ h, hend], fun k h0 hk => ?_⟩
  obtain ⟨k, rfl⟩ := Nat.exists_eq_add_of_lt h0
  rw [Nat.zero_add, runMicro_succ h]
  exact hquiet k (by omega)

/-- A command accepted at a boundary and put into APPEND or PAD is running. -/
theorem running_accept {s : State} (hb : Boundary s) (hh : s.host = []) (k : Starter) :
    Running { accept s with seq := k.seq } :=
  ⟨by rcases k.seq_cases with h | h <;> simp [h], hb.noReset, hb.oneHost, hh, rfl⟩

/-- An UPDATE absorbs its message bytes (R102). -/
theorem exec_of_isUpdate {i : Instr} (hu : i.isUpdate = true) (s : State) : exec i s = .next (absorb i.messageBytes s) := by
  cases i <;> simp only [Instr.isUpdate, Bool.false_eq_true] at hu <;> rfl

/-- An instruction carries at most three message bytes (R73). -/
theorem length_messageBytes (i : Instr) : i.messageBytes.length ≤ 3 := by
  cases i <;> simp [Instr.messageBytes]

/-- FINAL presents at most 72 bytes, which end a block and start at most one more (R148, R149). -/
theorem padBytes_cost (s : State) :
    (padBytes s.count).length + 64 * ((fillNat s + (padBytes s.count).length) / 64) ≤ 200 := by
  have hf : (fillIndex s.count).toNat = fillNat s := fillIndex_toNat s.count
  have hlt := fillNat_lt s
  simp only [padBytes, lengthBytes, List.length_cons, List.length_append, List.length_replicate, List.length_nil, padLen, hf]
  split <;> omega

/-- UPDATE's micro-sequence ends in the state of the whole command (R102). -/
theorem update_microRefines {s : State} (hb : Boundary s) (hp : s.pending = []) (hh : s.host = []) {bytes : List Byte}
    (hlen : bytes.length ≤ 3) (hm : microStep s = .next (beginUpdate bytes (accept s))) :
    MicroRefines s (absorb bytes (accept s)) := by
  unfold beginUpdate at hm
  unfold absorb
  split <;> rename_i hf
  · exact microRefines_of_microStep (by rwa [if_pos hf] at hm)
  · rw [if_neg hf] at hm
    refine microRefines_of_quietRun hm (quietRun_sequence .append bytes (running_accept hb hh .append) rfl hp) ?_
    have := fillNat_lt { accept s with seq := Starter.append.seq }
    omega

/-- FINAL's micro-sequence ends in the state of the whole command (R103, R148). -/
theorem final_microRefines {s : State} (hb : Boundary s) (hp : s.pending = []) (hh : s.host = [])
    (hm : microStep s = .next (beginFinal (accept s))) :
    MicroRefines s (respond .ok 0 (if (accept s).finalized then accept s else padAndFinish (accept s))) := by
  unfold beginFinal at hm
  split <;> rename_i hf
  · exact microRefines_of_microStep (by rwa [if_pos hf] at hm)
  · rw [if_neg hf] at hm
    exact microRefines_of_quietRun hm (quietRun_sequence .pad _ (running_accept hb hh .pad) rfl hp)
      (Nat.add_le_add_right (padBytes_cost { accept s with seq := Starter.pad.seq }) 1)

/-- Settles O52: an UPDATE or FINAL is a quiet run of its bytes, its transforms and its end; every other word is one
micro-step. -/
theorem microSequenceRefinesTheCommand : Obligations.MicroSequenceRefinesTheCommand := by
  unfold Obligations.MicroSequenceRefinesTheCommand
  intro s t hb hp hh hv hs
  show MicroRefines s t
  cases hd : decodeCommand s.cmd with
  | error r =>
    rw [step, cycle_of_illegal hb hv hd] at hs
    exact microRefines_of_microStep (by rw [microStep, cycle_of_illegal hb hv hd, hs])
  | ok i =>
    have hc := decodeCommand_isCommand hd
    have hm : microStep s = beginCommand i (accept s) := cycle_of_decode hb hv hd
    rw [step, cycle_of_decode hb hv hd] at hs
    obtain ⟨hu, hbegin⟩ | ⟨rfl, hbegin⟩ | ⟨-, -, hbegin⟩ := beginCommand_cases hc (accept s) <;> rw [hbegin] at hm
    · rw [exec_of_isUpdate hu] at hs
      cases hs
      exact update_microRefines hb hp hh (length_messageBytes i) hm
    · cases hs
      exact final_microRefines hb hp hh hm
    · exact microRefines_of_microStep (by rw [hm, hs])

end Sys2Proof.Machine
end

section
/-!
PROOF. The run of a whole message, INIT, any UPDATEs, FINAL, at the command level (R13), and the digest it freezes (O53).
-/

namespace Sys2Proof.Machine

/-! ## Runs of commands -/

/-- The command word of a host command decodes to it (R70 to R75, R80). -/
theorem decodeCommand_of_encodeCommand {i : Instr} {w : Word} (h : encodeCommand i = some w) : decodeCommand w = .ok i := by
  cases i <;> simp only [encodeCommand, encode, Option.some.injEq, reduceCtorEq] at h <;> subst h <;>
    simp [decodeCommand, decodeUpdate, decodeZeroArg, commandWord_lane, data_lanes,
      BitVec.extractLsb'_append_eq_left (w := 16) (w' := 8), BitVec.extractLsb'_append_eq_right (w := 16) (w' := 8),
      BitVec.extractLsb'_append_eq_left (w := 20) (w' := 4), BitVec.extractLsb'_append_eq_right (w := 20) (w' := 4),
      BitVec.extractLsb'_append_eq_left (w := 19) (w' := 5), BitVec.extractLsb'_append_eq_right (w := 19) (w' := 5)]

/-- A command of a run at a boundary is `exec` of it, once its word is accepted (R60, R100). -/
theorem runCommand_of_exec {i : Instr} {w : Word} {s t : State} (hb : Boundary s) (hw : encodeCommand i = some w)
    (he : exec i (accept (s.issue w)) = .next t) (hv : t.respValid = true) (hc : t.cmdValid = false) :
    runCommand w s = some t := by
  have hstep : step (s.issue w) = .next t := by
    have hb' : Boundary (s.issue w) := ⟨hb.idle, hb.noReset, hb.oneHost⟩
    rw [step, cycle_of_decode hb' rfl (decodeCommand_of_encodeCommand hw), he]
  rw [runCommand, hstep]
  simp [hv, hc]

theorem runCommands_cons {w : Word} {ws : List Word} {rs : List Word} {s t u : State} (h1 : runCommand w s = some t)
    (h2 : runCommands ws t = some (rs, u)) : runCommands (w :: ws) s = some (t.resp :: rs, u) := by
  simp [runCommands, h1, h2]

theorem runCommands_singleton {w : Word} {s t : State} (h : runCommand w s = some t) :
    runCommands [w] s = some ([t.resp], t) := runCommands_cons h rfl

/-- Runs follow one another (R270). -/
theorem runCommands_append {ws vs rs qs : List Word} {s t u : State} (h1 : runCommands ws s = some (rs, t))
    (h2 : runCommands vs t = some (qs, u)) : runCommands (ws ++ vs) s = some (rs ++ qs, u) := by
  induction ws generalizing s rs with
  | nil =>
    cases h1
    exact h2
  | cons w ws ih =>
    simp only [runCommands, Option.bind_eq_some_iff, Option.map_eq_some_iff] at h1
    obtain ⟨a, ha, ⟨qs', t'⟩, hrest, heq⟩ := h1
    cases heq
    exact runCommands_cons ha (ih hrest)

theorem words_append (p q : List Instr) : words (p ++ q) = words p ++ words q := List.filterMap_append

/-! ## What UPDATE and FINAL leave alone -/

section
variable {s : State} (vs : List Byte) (hq : s.seq = .append ∨ s.seq = .pad)
include hq

theorem appendBytes_finalized : (appendBytes vs s).finalized = s.finalized := by rw [appendBytes_frame vs s hq]
theorem appendBytes_err : (appendBytes vs s).err = s.err := by rw [appendBytes_frame vs s hq]
theorem appendBytes_cmdValid : (appendBytes vs s).cmdValid = s.cmdValid := by rw [appendBytes_frame vs s hq]
theorem appendBytes_rst : (appendBytes vs s).rst = s.rst := by rw [appendBytes_frame vs s hq]
theorem appendBytes_secondHost : (appendBytes vs s).secondHost = s.secondHost := by rw [appendBytes_frame vs s hq]

end

/-- UPDATE before FINAL (R102). -/
theorem absorb_of_not_finalized {s : State} (hf : s.finalized = false) (bytes : List Byte) :
    absorb bytes s = respond .ok 0 (appendBytes bytes { s with seq := .append }) := by
  rw [absorb, if_neg (by simp [hf])]

/-- FINAL before FINAL (R103). -/
theorem exec_final_of_not_finalized {s : State} (hf : s.finalized = false) :
    exec .final s = .next (respond .ok 0 (padAndFinish s)) := by
  rw [exec, execFinal, if_neg (by simp [hf])]

theorem padAndFinish_err (s : State) : (padAndFinish s).err = s.err := appendBytes_err _ (.inr rfl)

theorem padAndFinish_cmdValid (s : State) : (padAndFinish s).cmdValid = s.cmdValid := appendBytes_cmdValid _ (.inr rfl)

/-- A change that spares the chaining state, COUNT, BUF and T absorbs nothing. -/
theorem absorbed_unchanged {s t : State} (hchain : t.chain = s.chain) (hcount : t.count = s.count) (hbuf : t.buf = s.buf)
    (htransforms : t.transforms = s.transforms) : Absorbed s t [] := by
  have htail : bufTail t = bufTail s := by rw [bufTail, bufTail, fillNat_congr hcount, hbuf]
  obtain ⟨h1, h2, h3⟩ := absorbed_nil s
  exact ⟨hchain.trans h1, htail.trans h2, htransforms.trans h3⟩

/-- An append absorbs its bytes in whatever sequencer state it is made. -/
theorem appendBytes_absorbed_in (q : Seq) (vs : List Byte) (s : State) :
    Absorbed s (appendBytes vs { s with seq := q }) vs :=
  (absorbed_unchanged (s := s) (t := { s with seq := q }) rfl rfl rfl rfl).trans (appendBytes_absorbed vs _)

/-! ## Inside a message -/

/-- At a boundary of a message that began in `s₀` and of which `m` has been absorbed, with no misuse so far. -/
structure MidMessage (s₀ s : State) (m : List Byte) : Prop where
  boundary : Boundary s
  notFinal : s.finalized = false
  noMisuse : NoMisuse s
  count : s.count = s₀.count + BitVec.ofNat 64 (8 * m.length)
  absorbed : Absorbed s₀ s m

/-- INIT begins a message (R101): OK, the IV, COUNT = 0, and no transform. -/
theorem runCommand_init {w : Word} {s : State} (hb : Boundary s) (hw : encodeCommand .init = some w) :
    ∃ t, runCommand w s = some t ∧ t.resp = 0 ∧ t.chain = iv ∧ t.count = 0 ∧ t.transforms = s.transforms ∧
      MidMessage t t [] :=
  ⟨_, runCommand_of_exec hb hw rfl rfl rfl, rfl, rfl, rfl, rfl,
    ⟨rfl, hb.noReset, hb.oneHost⟩, rfl, rfl, rfl, absorbed_nil _⟩

/-- Accepting the next word of a run stays at the same point of the message (R32, R100). -/
theorem MidMessage.accept_issue {s₀ s : State} {m : List Byte} (h : MidMessage s₀ s m) (w : Word) :
    MidMessage s₀ (accept (s.issue w)) m where
  boundary := ⟨h.boundary.idle, h.boundary.noReset, h.boundary.oneHost⟩
  notFinal := h.notFinal
  noMisuse := h.noMisuse
  count := h.count
  absorbed := by simpa using h.absorbed.trans (absorbed_unchanged (t := accept (s.issue w)) rfl rfl rfl rfl)

/-- UPDATE's body goes on with the message (R102). -/
theorem MidMessage.absorb {s₀ s : State} {m : List Byte} (h : MidMessage s₀ s m) (bytes : List Byte) :
    MidMessage s₀ (absorb bytes s) (m ++ bytes) := by
  rw [absorb_of_not_finalized h.notFinal]
  have habs := (h.absorbed.trans (appendBytes_absorbed_in .append bytes s)).trans
    (absorbed_unchanged (t := respond .ok 0 (appendBytes bytes { s with seq := .append })) rfl rfl rfl rfl)
  exact
    { boundary := ⟨rfl, (appendBytes_rst bytes (.inl rfl)).trans h.boundary.noReset,
        (appendBytes_secondHost bytes (.inl rfl)).trans h.boundary.oneHost⟩
      notFinal := (appendBytes_finalized bytes (.inl rfl)).trans h.notFinal
      noMisuse := (appendBytes_err bytes (.inl rfl)).trans h.noMisuse
      count := by
        rw [respond_count, appendBytes_count, h.count, BitVec.add_assoc, BitVec.ofNat_add_ofNat, ← Nat.mul_add,
          List.length_append]
      absorbed := by simpa using habs }

/-- An UPDATE of a run goes on with the message, and answers OK (R102). -/
theorem MidMessage.runCommand_update {s₀ s : State} {m : List Byte} (h : MidMessage s₀ s m) {i : Instr} {w : Word}
    (hu : i.isUpdate = true) (hw : encodeCommand i = some w) :
    ∃ t, runCommand w s = some t ∧ t.resp = 0 ∧ MidMessage s₀ t (m ++ i.messageBytes) := by
  have hnext := (h.accept_issue w).absorb i.messageBytes
  have hresp := absorb_of_not_finalized (h.accept_issue w).notFinal i.messageBytes
  refine ⟨_, runCommand_of_exec h.boundary hw (exec_of_isUpdate hu _) ?_ ?_, ?_, hnext⟩ <;> rw [hresp]
  · rfl
  · exact appendBytes_cmdValid _ (.inl rfl)
  · rfl

/-- An UPDATE is a host command, and has a word (R72). -/
theorem encodeCommand_of_isUpdate {i : Instr} (hu : i.isUpdate = true) : ∃ w, encodeCommand i = some w := by
  cases i <;> simp [Instr.isUpdate] at hu <;> exact ⟨_, rfl⟩

/-- Any UPDATE commands absorb the message they present, and every one answers OK (R13, R102). -/
theorem MidMessage.runCommands_updates {s₀ s : State} {m : List Byte} (h : MidMessage s₀ s m) {us : List Instr}
    (hus : us.all Instr.isUpdate = true) :
    ∃ t, runCommands (words us) s = some (List.replicate us.length 0, t) ∧ MidMessage s₀ t (m ++ messageOf us) := by
  induction us generalizing s m with
  | nil => exact ⟨s, rfl, by simpa [messageOf] using h⟩
  | cons i us ih =>
    rw [List.all_cons, Bool.and_eq_true] at hus
    obtain ⟨w, hw⟩ := encodeCommand_of_isUpdate hus.1
    obtain ⟨u, hrun, hresp, hmid⟩ := h.runCommand_update hus.1 hw
    obtain ⟨t, hruns, hmids⟩ := ih hmid hus.2
    refine ⟨t, ?_, by simpa [messageOf] using hmids⟩
    have hcons := runCommands_cons hrun hruns
    rwa [hresp, ← List.replicate_succ, words, ← List.filterMap_cons_some hw] at hcons

/-! ## The padded message -/

/-- FINAL presents the padding of R151 after a message whose length COUNT holds (R147 to R150). -/
theorem append_padBytes (m : List Byte) : m ++ padBytes (BitVec.ofNat 64 (8 * m.length)) = paddedMessage m := by
  have hidx : (fillIndex (BitVec.ofNat 64 (8 * m.length))).toNat = m.length % 64 := by
    rw [fillIndex_toNat, BitVec.toNat_ofNat]
    omega
  have hpad : padLen (fillIndex (BitVec.ofNat 64 (8 * m.length))) - 1 = zeroPad m.length := by
    rw [padLen, zeroPad, hidx]
    split <;> omega
  rw [padBytes, paddedMessage, hpad]
  simp

/-- The number of blocks of the padded message, the transforms of the whole run (R151, R276). -/
theorem paddedMessage_blocks (m : List Byte) : (paddedMessage m).length / 64 = (m.length + 8) / 64 + 1 := by
  simp only [paddedMessage, zeroPad, lengthBytes, List.length_append, List.length_replicate, List.length_cons,
    List.length_nil]
  omega

/-- PadAndFinish freezes the digest of the message that INIT began (R148, R151, R152). -/
theorem MidMessage.padAndFinish {s₀ s : State} {m : List Byte} (h : MidMessage s₀ s m) (hchain : s₀.chain = iv)
    (hcount : s₀.count = 0) :
    (padAndFinish s).digest = md5 m ∧ (padAndFinish s).transforms = s₀.transforms + ((m.length + 8) / 64 + 1) := by
  have hempty : bufTail s₀ = [] := by
    apply List.eq_nil_of_length_eq_zero
    rw [length_bufTail, fillNat, hcount]
    rfl
  have hlen : s.count = BitVec.ofNat 64 (8 * m.length) := by
    rw [h.count, hcount]
    exact BitVec.zero_add _
  have habs := h.absorbed.trans (appendBytes_absorbed_in .pad (padBytes s.count) s)
  rw [show m ++ padBytes s.count = paddedMessage m by rw [hlen, append_padBytes]] at habs
  obtain ⟨hblocks, -, htransforms⟩ := habs
  rw [hempty, List.nil_append] at hblocks htransforms
  rw [hchain] at hblocks
  rw [paddedMessage_blocks] at htransforms
  exact ⟨congrArg encodeDigest hblocks, htransforms⟩

/-- FINAL of a run ends the message: OK, and DIGEST is the digest of the message (R103). -/
theorem MidMessage.runCommand_final {s₀ s : State} {m : List Byte} (h : MidMessage s₀ s m) {w : Word}
    (hw : encodeCommand .final = some w) (hchain : s₀.chain = iv) (hcount : s₀.count = 0) :
    ∃ t, runCommand w s = some t ∧ t.resp = 0 ∧ t.digest = md5 m ∧ t.finalized = true ∧ NoMisuse t ∧
      t.transforms = s₀.transforms + ((m.length + 8) / 64 + 1) := by
  have hmid := h.accept_issue w
  obtain ⟨hdigest, htransforms⟩ := hmid.padAndFinish hchain hcount
  exact ⟨_, runCommand_of_exec h.boundary hw (exec_final_of_not_finalized hmid.notFinal) rfl (padAndFinish_cmdValid _), rfl,
    hdigest, rfl, (padAndFinish_err _).trans hmid.noMisuse, htransforms⟩

/-- Settles O53: INIT begins an empty message, the UPDATEs absorb theirs, FINAL absorbs the padding and freezes. -/
theorem hashRunComputesTheDigest : Obligations.HashRunComputesTheDigest := by
  unfold Obligations.HashRunComputesTheDigest
  intro s us hb hus
  obtain ⟨s₀, hinit, hresp₀, hchain, hcount, htransforms, hmid₀⟩ := runCommand_init hb rfl
  obtain ⟨u, hruns, hmid⟩ := hmid₀.runCommands_updates hus
  obtain ⟨t, hfinal, hresp, hdigest, hfin, hmisuse, ht⟩ := hmid.runCommand_final rfl hchain hcount
  rw [List.nil_append] at hdigest ht
  refine ⟨t, ?_, hdigest, hfin, hmisuse, by rw [ht, htransforms]⟩
  have hrun := runCommands_append (runCommands_append (runCommands_singleton hinit) hruns) (runCommands_singleton hfinal)
  rw [hresp₀, hresp] at hrun
  rw [words_append, words_append, List.replicate_succ', List.replicate_succ]
  exact hrun

end Sys2Proof.Machine
end

section
/-!
PROOF. The invariant of the engine's state (R35) in the reset state (O48, O49) and under a whole command, which the command
level runs in one step (O50).
-/

namespace Sys2Proof.Machine

variable {s : State}

/-- A count of whole bytes still counts whole bytes after several more (R141, R142). -/
theorem countBytes_add_bytes {c : BitVec 64} (h : c.extractLsb' 0 3 = 0) (n : Nat) :
    (c + BitVec.ofNat 64 (8 * n)).extractLsb' 0 3 = 0 := by
  have h8 := congrArg BitVec.toNat h
  apply BitVec.eq_of_toNat_eq
  rw [toNat_extractLsb'_eq] at h8 ⊢
  rw [BitVec.toNat_add, BitVec.toNat_ofNat]
  rw [show (0 : BitVec 3).toNat = 0 from rfl] at h8 ⊢
  omega

/-- SEQ is no part of a settled state. -/
theorem Settled.withSeq (h : Settled s) (q : Seq) : Settled { s with seq := q } := by
  cases h
  constructor <;> assumption

/-- An append of several bytes, with every transform that they trigger, leaves a settled state before FINAL (R142, R143). -/
theorem Settled.appendBytes (h : Settled s) (hq : s.seq = .append ∨ s.seq = .pad) (hf : s.finalized = false)
    (vs : List Byte) : Settled (appendBytes vs s) := by
  have hfin : (Machine.appendBytes vs s).finalized = false := (appendBytes_finalized vs hq).trans hf
  obtain ⟨hx, hstep⟩ := appendBytes_rest vs s h.xZero h.stepZero
  exact
    { countBytes := by
        rw [appendBytes_count]
        exact countBytes_add_bytes h.countBytes _
      finalCount := fun hc => absurd hc (by simp [hfin])
      finalBuf := fun hc => absurd hc (by simp [hfin])
      finalDigest := fun hc => absurd hc (by simp [hfin])
      nonePending := by
        rw [appendBytes_frame vs s hq]
        exact h.nonePending
      stepZero := hstep
      xZero := hx
      noReset := (appendBytes_rst vs hq).trans h.noReset }

/-- An UPDATE keeps the invariant, whether it is rejected or absorbs its bytes (R102, R234). -/
theorem Settled.absorb (h : Settled s) (bytes : List Byte) : EngineInv (absorb bytes s) := by
  by_cases hf : s.finalized = true
  · rw [Machine.absorb, if_pos hf]
    exact h.raise _
  · have hf : s.finalized = false := by simpa using hf
    rw [absorb_of_not_finalized hf]
    exact ((h.withSeq .append).appendBytes (.inl rfl) hf bytes).respond (absurd rfl)

/-- PadAndFinish leaves a settled state before FINAL (R148, R152, R153). -/
theorem Settled.padAndFinish (h : Settled s) (hf : s.finalized = false) : Settled (padAndFinish s) :=
  ((h.withSeq .pad).appendBytes (.inr rfl) hf _).freezeDigest

/-- FINAL keeps the invariant, the first as well as a repeated one (R103). -/
theorem Settled.final (h : Settled s) :
    EngineInv (Machine.respond .ok 0 (if s.finalized then s else Machine.padAndFinish s)) := by
  split
  · exact h.respond (absurd rfl)
  · exact (h.padAndFinish (by simpa using ‹¬ s.finalized = true›)).respond (absurd rfl)

/-- Every host command, run whole, keeps the invariant. -/
theorem Settled.exec (h : Settled s) {i : Instr} {t : State} (hc : i.isCommand = true) (he : exec i s = .next t) :
    EngineInv t := by
  by_cases hu : i.isUpdate = true
  · rw [exec_of_isUpdate hu] at he
    cases he
    exact h.absorb _
  · by_cases hf : i = .final
    · subst hf
      cases he
      exact h.final
    · exact h.exec_of_atOnce hc (by simpa using hu) hf he

/-- Settles O50: the command level is a cycle whose commands run whole, and each keeps the invariant. -/
theorem stepKeepsTheInvariant : Obligations.StepKeepsTheInvariant := by
  unfold Obligations.StepKeepsTheInvariant
  intro s t h hs
  exact h.cycle (fun hu _ hc he => hu.exec hc he) hs

/-- Settles O49: the reset state is a hardware reset of itself with RST deasserted. -/
theorem invariantHoldsAtReset : Obligations.InvariantHoldsAtReset := by
  unfold Obligations.InvariantHoldsAtReset
  exact engineInv_hardReset State.reset false

/-- Settles O48: every value is the one that `State.reset` writes out. -/
theorem resetStateValues : Obligations.ResetStateValues := by
  unfold Obligations.ResetStateValues
  exact ⟨rfl, rfl, rfl, rfl, rfl, rfl, rfl, rfl, rfl, rfl, rfl, rfl⟩

end Sys2Proof.Machine
end

section
/-!
PROOF. The step of the machine in a state that runs a command, is inside one, or holds one on its port (O7, O8, O12).
-/

namespace Sys2Proof.Machine

variable {s t : State}

/-- Settles O7: a command boundary is where the cycle accepts and starts the decoded word. -/
theorem stepRunsDecodedCommand : Obligations.StepRunsDecodedCommand := by
  unfold Obligations.StepRunsDecodedCommand
  intro s i hb hv hd
  exact cycle_of_decode hb hv hd

/-- Inside a transform, with no event of the host to land, a cycle runs the micro-operation that STEP decodes to, at either
level (R78, R205). -/
theorem cycle_of_compress {start run : Instr → State → Host.Outcome State Fault Refusal} {k : Starter}
    (hq : s.seq = .compress k) (hr : s.rst = false) (h2 : s.secondHost = false) (hh : hostActs s = false) :
    cycle start run s = run (decodeStep s.stepCtr) (hostPause s) := by
  have hstep : (hostPause s).stepCtr = s.stepCtr := by rw [hostPause_eq]
  simp [cycle, besideHost, hq, hr, h2, hh, hstep]

/-- Settles O8: neither an empty list of the host's nor a `wait` is an event that lands. -/
theorem stepRunsDecodedMicroOp : Obligations.StepRunsDecodedMicroOp := by
  unfold Obligations.StepRunsDecodedMicroOp
  intro s k hq hr h2
  refine ⟨fun hh => ?_, fun es hh => ?_⟩ <;>
    rw [step, cycle_of_compress hq hr h2 (by rw [hostActs, hh]), hostPause, hh]

/-! ## A busy engine -/

/-- What the sequencer of a busy engine does in one step of its own (R31): it presents the next byte, ends the command when
none is left, or runs the micro-operation that STEP selects. -/
inductive SequencerStep (s : State) : State → Prop
  | endUpdate : s.seq = .append → s.pending = [] → SequencerStep s (finishUpdate s)
  | endFinal : s.seq = .pad → s.pending = [] → SequencerStep s (finishFinal s)
  | byte {v : Byte} {vs : List Byte} : s.seq = .append ∨ s.seq = .pad → s.pending = v :: vs →
      SequencerStep s (presentByte v { s with pending := vs })
  | compress {k : Starter} : s.seq = .compress k → SequencerStep s (seqMicroOp s)

/-- A sequencer step of APPEND or PAD presents the next byte, or is the command's end. -/
theorem sequencerStep_presentNext {finish : State → State} (hq : s.seq = .append ∨ s.seq = .pad)
    (hend : s.pending = [] → SequencerStep s (finish s)) : SequencerStep s (presentNext finish s) := by
  unfold presentNext
  split
  · exact hend ‹_›
  · exact .byte hq ‹_›

/-- A busy engine out of reset lets an event of the host land, or takes its own step beside a pause of the host's, at either
level (R32, R108). -/
theorem cycle_busy_cases {start : Instr → State → Host.Outcome State Fault Refusal} (hq : s.seq ≠ .idle)
    (hr : s.rst = false) (h : cycle start exec s = .next t) :
    (hostActs s = true ∧ t = hostTurn s) ∨ (hostActs s = false ∧ SequencerStep (hostPause s) t) := by
  obtain ⟨-, ⟨hr', -⟩ | ⟨-, hi, -⟩ | ⟨-, hi, -⟩ | ⟨-, -, ha, rfl⟩ | ⟨-, ha, hown⟩⟩ := cycle_cases h
  · simp [hr] at hr'
  · exact absurd hi hq
  · exact absurd hi hq
  · exact .inl ⟨ha, rfl⟩
  · refine .inr ⟨ha, ?_⟩
    simp only [← hostPause_seq s] at hown
    obtain ⟨happend, rfl⟩ | ⟨hpad, rfl⟩ | ⟨⟨k, hk⟩, hrun⟩ := hown
    · exact sequencerStep_presentNext (.inl happend) (.endUpdate happend)
    · exact sequencerStep_presentNext (.inr hpad) (.endFinal hpad)
    · rw [exec_decodeStep] at hrun
      cases hrun
      exact .compress hk

/-- `t` has the command port and the host of `s`. -/
structure SamePort (s t : State) : Prop where
  cmd : t.cmd = s.cmd
  cmdValid : t.cmdValid = s.cmdValid
  host : t.host = s.host

/-- A micro-operation leaves the command port and the host alone. -/
theorem microOp_samePort (f : Word → Word → Word → Word) (i : BitVec 6) (s : State) : SamePort s (microOp f i s) := by
  unfold microOp
  split <;> exact ⟨rfl, rfl, rfl⟩

/-- The sequencer leaves the command port and the host alone. -/
theorem SequencerStep.samePort (h : SequencerStep s t) : SamePort s t := by
  cases h with
  | endUpdate => exact ⟨rfl, rfl, rfl⟩
  | endFinal => exact ⟨rfl, rfl, rfl⟩
  | byte =>
    rw [presentByte_frame]
    exact ⟨rfl, rfl, rfl⟩
  | compress => exact microOp_samePort _ _ s

/-- While a word waits, the only events of the host that land in a busy engine are those of RST, and they leave the word on
the port (R108, R261). -/
theorem hostTurn_keeps_waitingWord (ha : hostActs s = true) (hv : s.cmdValid = true) :
    (hostTurn s).cmd = s.cmd ∧ (hostTurn s).cmdValid = true ∧ ∀ w es, s.host ≠ .issue w :: es := by
  obtain ⟨hh, -⟩ | ⟨e, es, hh, ht⟩ := hostTurn_cases s
  · simp [hostActs, hh] at ha
  · rw [ht]
    cases e with
    | issue w => simp [hostActs, hh, hv] at ha
    | wait => simp [hostActs, hh] at ha
    | assertReset => exact ⟨rfl, hv, by simp [hh]⟩
    | releaseReset => exact ⟨rfl, hv, by simp [hh]⟩

/-- A busy engine's step leaves the word that waits on its port there, at either level. -/
theorem cycle_busy_keeps_waitingWord {start : Instr → State → Host.Outcome State Fault Refusal} (hq : s.seq ≠ .idle)
    (hr : s.rst = false) (hv : s.cmdValid = true) (h : cycle start exec s = .next t) :
    t.cmd = s.cmd ∧ t.cmdValid = true ∧ ((∃ w es, s.host = .issue w :: es) → t.host = s.host) := by
  obtain ⟨ha, rfl⟩ | ⟨-, hown⟩ := cycle_busy_cases hq hr h
  · obtain ⟨hcmd, hvalid, hne⟩ := hostTurn_keeps_waitingWord ha hv
    exact ⟨hcmd, hvalid, fun ⟨w, es, hh⟩ => absurd hh (hne w es)⟩
  · obtain ⟨hcmd, hvalid, hhost⟩ := hown.samePort
    have hpause := hostPause_eq s
    refine ⟨by rw [hcmd, hpause], by rw [hvalid, hpause, hv], fun ⟨w, es, hh⟩ => ?_⟩
    rw [hhost, hostPause, hh]
    exact hh

/-- Settles O12: both levels are cycles, and the busy step of a cycle keeps the waiting word. -/
theorem busyEngineHoldsTheCommand : Obligations.BusyEngineHoldsTheCommand := by
  unfold Obligations.BusyEngineHoldsTheCommand
  intro s t hq hr hv hs
  refine ⟨by simp [State.ready, hq], ?_⟩
  rcases hs with hs | hs
  · exact cycle_busy_keeps_waitingWord hq hr hv hs
  · exact cycle_busy_keeps_waitingWord hq hr hv hs

end Sys2Proof.Machine
end

section
/-!
PROOF. Who writes DIGEST and FINALIZED once the digest is frozen (O45), and who writes A..D (O46).
-/

namespace Sys2Proof.Machine

variable {s t : State}

/-- Short of the assertion of RST, an event of the host changes nothing but the engine's inputs (R108). -/
theorem hostTurn_frame (h : s.host.head? ≠ some .assertReset) :
    hostTurn s =
      { s with
        cmd := (hostTurn s).cmd, cmdValid := (hostTurn s).cmdValid, rst := (hostTurn s).rst, host := (hostTurn s).host } := by
  obtain ⟨-, ht⟩ | ⟨e, es, hh, ht⟩ := hostTurn_cases s
  · rw [ht]
  · rw [ht]
    cases e with
    | issue w => rfl
    | wait => rfl
    | assertReset => simp [hh] at h
    | releaseReset => rfl

/-! ## The frozen digest -/

/-- While FINALIZED = 1 no command writes DIGEST, and only INIT clears FINALIZED (R26, R27). -/
theorem exec_of_finalized {i : Instr} (hc : i.isCommand = true) (hf : s.finalized = true) (he : exec i s = .next t) :
    t.digest = s.digest ∧ (t.finalized = true ∨ i = .init) := by
  obtain ⟨rfl, rfl⟩ | ⟨-, rfl⟩ | ⟨-, rfl⟩ | ⟨-, ⟨b, -, rfl⟩ | ⟨hf', -⟩⟩ | ⟨-, rfl⟩ := exec_command_cases hc he
  · exact ⟨rfl, .inr rfl⟩
  · rw [absorb, if_pos hf]
    exact ⟨rfl, .inl hf⟩
  · rw [if_pos hf]
    exact ⟨rfl, .inl hf⟩
  · exact ⟨rfl, .inl hf⟩
  · simp [hf] at hf'
  · exact ⟨rfl, .inl hf⟩

/-- Settles O45: an engine that is finalized is IDLE by the invariant, so its step is the host's turn or a command. -/
theorem digestIsImmutableWhileFinalized : Obligations.DigestIsImmutableWhileFinalized := by
  unfold Obligations.DigestIsImmutableWhileFinalized
  intro s t hinv ⟨hr, hhead⟩ hf hs
  have hidle : s.seq = .idle := by
    by_contra hq
    simp [hinv.busyNotFinal hq] at hf
  obtain ⟨-, ⟨hr', -⟩ | ⟨-, -, -, rfl⟩ | ⟨-, -, hv, hcmd⟩ | ⟨-, hq, -⟩ | ⟨-, -, hbusy⟩⟩ := cycle_cases hs
  · simp [hr] at hr'
  · rw [hostTurn_frame hhead]
    exact ⟨rfl, .inl hf⟩
  · obtain ⟨i, hd, he⟩ | ⟨-, -, rfl⟩ := hcmd
    · obtain ⟨hdigest, hfin⟩ := exec_of_finalized (s := accept s) (decodeCommand_isCommand hd) hf he
      exact ⟨hdigest, hfin.imp_right fun (hi : i = .init) => ⟨hidle, hv, hi ▸ hd⟩⟩
    · exact ⟨rfl, .inl hf⟩
  · exact absurd hidle hq
  · simp [hidle] at hbusy

/-! ## The chaining state -/

/-- From `s` to `t` A..D are unchanged unless a transform has run. -/
def ChainKept (s t : State) : Prop := t.chain = s.chain ∨ s.transforms < t.transforms

/-- Bytes that fill no block leave A..D; those that fill one run a transform (R142, R143). -/
theorem Absorbed.chainKept {vs : List Byte} (h : Absorbed s t vs) : ChainKept s t := by
  obtain ⟨hchain, -, htransforms⟩ := h
  obtain h0 | hpos := Nat.eq_zero_or_pos ((bufTail s ++ vs).length / 64)
  · rw [h0, absorbBlocks_zero] at hchain
    exact .inl hchain
  · exact .inr (by omega)

/-- UPDATE writes A..D by its transforms alone (R102). -/
theorem absorb_chainKept (bytes : List Byte) (s : State) : ChainKept s (absorb bytes s) := by
  unfold absorb
  split
  · exact .inl rfl
  · exact (appendBytes_absorbed_in .append bytes s).chainKept

/-- FINAL writes A..D by its transforms alone (R103, R148). -/
theorem final_chainKept (s : State) : ChainKept s (respond .ok 0 (if s.finalized then s else padAndFinish s)) := by
  split
  · exact .inl rfl
  · exact (appendBytes_absorbed_in .pad (padBytes s.count) s).chainKept

/-- Every host command but INIT writes A..D by its transforms alone. -/
theorem exec_chainKept {i : Instr} (hc : i.isCommand = true) (he : exec i s = .next t) : i = .init ∨ ChainKept s t := by
  obtain ⟨hi, -⟩ | ⟨-, rfl⟩ | ⟨-, rfl⟩ | ⟨-, ⟨b, -, rfl⟩ | ⟨-, rfl⟩⟩ | ⟨-, rfl⟩ := exec_command_cases hc he
  · exact .inl hi
  · exact .inr (absorb_chainKept _ s)
  · exact .inr (final_chainKept s)
  · exact .inr (.inl rfl)
  · exact .inr (.inl rfl)
  · exact .inr (.inl rfl)

/-- A micro-operation leaves A..D until the feed-forward after step 63 (R207, R210). -/
theorem microOp_chainKept (f : Word → Word → Word → Word) (i : BitVec 6) (s : State) : ChainKept s (microOp f i s) := by
  by_cases hi : i = 63
  · subst hi
    rw [microOp_last]
    exact .inr (Nat.lt_succ_self s.transforms)
  · rw [microOp_of_ne _ _ _ hi]
    exact .inl rfl

/-- The sequencer writes A..D in the feed-forward of a transform alone. -/
theorem SequencerStep.chainKept (h : SequencerStep s t) : ChainKept s t := by
  cases h with
  | endUpdate => exact .inl rfl
  | endFinal => exact .inl rfl
  | byte =>
    rw [presentByte_frame]
    exact .inl rfl
  | compress => exact microOp_chainKept _ _ s

/-- Settles O46: a step that runs no INIT and asserts no reset keeps A..D unless a transform completes. -/
theorem onlyInitAndFeedForwardWriteTheState : Obligations.OnlyInitAndFeedForwardWriteTheState := by
  unfold Obligations.OnlyInitAndFeedForwardWriteTheState
  intro s t ⟨hr, hhead⟩ hs hne
  have hturn : (hostTurn s).chain = s.chain := by rw [hostTurn_frame hhead]
  by_cases hq : s.seq = .idle
  · obtain ⟨-, ⟨hr', -⟩ | ⟨-, -, -, rfl⟩ | ⟨-, -, hv, hcmd⟩ | ⟨-, hq', -⟩ | ⟨-, -, hbusy⟩⟩ := cycle_cases hs
    · simp [hr] at hr'
    · exact absurd hturn hne
    · obtain ⟨i, hd, he⟩ | ⟨-, -, rfl⟩ := hcmd
      · obtain rfl | hkept := exec_chainKept (decodeCommand_isCommand hd) he
        · exact .inl ⟨hq, hv, hd⟩
        · exact .inr (hkept.resolve_left hne)
      · exact absurd rfl hne
    · exact absurd hq hq'
    · simp [hq] at hbusy
  · obtain ⟨-, rfl⟩ | ⟨-, hown⟩ := cycle_busy_cases hq hr hs
    · exact absurd hturn hne
    · have hkept := hown.chainKept
      rw [hostPause_eq] at hkept
      exact .inr (hkept.resolve_left hne)

end Sys2Proof.Machine
end

section
/-!
PROOF. What a host cannot see of the hidden state (R34): command words take states that it cannot tell apart to states that
it cannot tell apart, with the same response (O57).
-/

namespace Sys2Proof.Machine

variable {s t : State}

/-! ## A word of a run completes -/

/-- `t` is a state in which a command run from `s` has answered: IDLE with a response, the inputs as they were. -/
structure Answered (s t : State) : Prop where
  respValid : t.respValid = true
  idle : t.seq = .idle
  cmdValid : t.cmdValid = s.cmdValid
  rst : t.rst = s.rst
  secondHost : t.secondHost = s.secondHost

/-- An UPDATE answers (R102). -/
theorem absorb_answered (bytes : List Byte) (s : State) : Answered s (absorb bytes s) := by
  unfold absorb
  split
  · exact ⟨rfl, rfl, rfl, rfl, rfl⟩
  · exact ⟨rfl, rfl, appendBytes_cmdValid bytes (.inl rfl), appendBytes_rst bytes (.inl rfl),
      appendBytes_secondHost bytes (.inl rfl)⟩

/-- A FINAL answers (R103). -/
theorem final_answered (s : State) : Answered s (respond .ok 0 (if s.finalized then s else padAndFinish s)) := by
  split
  · exact ⟨rfl, rfl, rfl, rfl, rfl⟩
  · exact ⟨rfl, rfl, padAndFinish_cmdValid s, appendBytes_rst _ (.inr rfl), appendBytes_secondHost _ (.inr rfl)⟩

/-- Every host command answers (R10, R100). -/
theorem exec_answered {i : Instr} (hc : i.isCommand = true) (he : exec i s = .next t) : Answered s t := by
  obtain ⟨-, rfl⟩ | ⟨-, rfl⟩ | ⟨-, rfl⟩ | ⟨-, ⟨b, -, rfl⟩ | ⟨-, rfl⟩⟩ | ⟨-, rfl⟩ := exec_command_cases hc he
  · exact ⟨rfl, rfl, rfl, rfl, rfl⟩
  · exact absorb_answered _ s
  · exact final_answered s
  · exact ⟨rfl, rfl, rfl, rfl, rfl⟩
  · exact ⟨rfl, rfl, rfl, rfl, rfl⟩
  · exact ⟨rfl, rfl, rfl, rfl, rfl⟩

/-- A word whose step answers from the state that accepted it completes, at a boundary. -/
theorem runCommand_of_answered {w : Word} (hb : Boundary s) (hs : step (s.issue w) = .next t)
    (h : Answered (accept (s.issue w)) t) : runCommand w s = some t ∧ Boundary t := by
  refine ⟨?_, ⟨h.idle, h.rst.trans hb.noReset, h.secondHost.trans hb.oneHost⟩⟩
  rw [runCommand, hs]
  simp [h.respValid, h.cmdValid]

/-- A legal word of a run at a boundary is `exec` of its command, once it is accepted (R60, R100). -/
theorem runCommand_of_decode {i : Instr} {w : Word} (hb : Boundary s) (hd : decodeCommand w = .ok i)
    (he : exec i (accept (s.issue w)) = .next t) : runCommand w s = some t ∧ Boundary t :=
  runCommand_of_answered hb
    ((cycle_of_decode (s := s.issue w) ⟨hb.idle, hb.noReset, hb.oneHost⟩ rfl hd).trans he)
    (exec_answered (decodeCommand_isCommand hd) he)

/-- An illegal word of a run at a boundary is answered with E_ILLEGAL (R107). -/
theorem runCommand_of_illegal {r : IllegalReason} {w : Word} (hb : Boundary s) (hd : decodeCommand w = .error r) :
    runCommand w s = some (raise .eIllegal (accept (s.issue w))) ∧ Boundary (raise .eIllegal (accept (s.issue w))) :=
  runCommand_of_answered hb (cycle_of_illegal (s := s.issue w) ⟨hb.idle, hb.noReset, hb.oneHost⟩ rfl hd) ⟨rfl, rfl, rfl, rfl, rfl⟩

/-! ## States that a host cannot tell apart -/

/-- SEQ is not seen in a response. -/
theorem HostEqual.withSeq (h : HostEqual s t) (q : Seq) : HostEqual { s with seq := q } { t with seq := q } :=
  ⟨h.chain, h.count, h.finalized, h.err, h.buf, h.digest⟩

/-- Issuing and accepting a word shows nothing of what is hidden. -/
theorem HostEqual.accept_issue (h : HostEqual s t) (w : Word) : HostEqual (accept (s.issue w)) (accept (t.issue w)) :=
  ⟨h.chain, h.count, h.finalized, h.err, h.buf, h.digest⟩

/-- STATUS is the same in states that a host cannot tell apart (R29). -/
theorem HostEqual.statusReg_eq (h : HostEqual s t) : statusReg s = statusReg t := by
  rw [statusReg, statusReg, h.err, h.finalized]

/-- INIT's new message is the same from every state: nothing waits in BUF, since COUNT is 0 (R101, R110). -/
theorem hostEqual_newMessage (s t : State) :
    HostEqual { s with chain := iv, count := 0, finalized := false, err := false }
      { t with chain := iv, count := 0, finalized := false, err := false } :=
  ⟨rfl, rfl, rfl, rfl, by simp [bufTail, fillNat], nofun⟩

/-- Before FINAL, an append of the same bytes depends on what a host can tell alone: A..D, COUNT and the waiting bytes. -/
theorem HostEqual.appendBytes (h : HostEqual s t) (hs : s.seq = .append ∨ s.seq = .pad)
    (ht : t.seq = .append ∨ t.seq = .pad) (hf : s.finalized = false) (vs : List Byte) :
    HostEqual (appendBytes vs s) (appendBytes vs t) := by
  have habs := appendBytes_absorbed vs s
  have habt := appendBytes_absorbed vs t
  exact
    { chain := by rw [habs.chain, habt.chain, h.buf, h.chain]
      count := by rw [appendBytes_count, appendBytes_count, h.count]
      finalized := by rw [appendBytes_finalized vs hs, appendBytes_finalized vs ht, h.finalized]
      err := by rw [appendBytes_err vs hs, appendBytes_err vs ht, h.err]
      buf := by rw [habs.tail, habt.tail, h.buf]
      digest := fun hc => absurd hc (by simp [appendBytes_finalized vs hs, hf]) }

/-- The frozen digest is that of A..D, and BUF and COUNT are zero (R152, R153). -/
theorem HostEqual.freezeDigest (h : HostEqual s t) : HostEqual (freezeDigest s) (freezeDigest t) :=
  ⟨h.chain, rfl, rfl, h.err, rfl, fun _ => congrArg encodeDigest h.chain⟩

/-- PadAndFinish depends on what a host can tell alone (R148). -/
theorem HostEqual.padAndFinish (h : HostEqual s t) (hf : s.finalized = false) :
    HostEqual (padAndFinish s) (padAndFinish t) := by
  have hpad : padBytes t.count = padBytes s.count := by rw [h.count]
  rw [Machine.padAndFinish, Machine.padAndFinish, hpad]
  exact ((h.withSeq .pad).appendBytes (.inr rfl) (.inr rfl) hf _).freezeDigest

/-! ## The same answer -/

/-- States that a host cannot tell apart, with the same word on RESP. -/
structure SameAnswer (s t : State) : Prop extends HostEqual s t where
  resp : s.resp = t.resp

/-- The same response from states that a host cannot tell apart. -/
theorem HostEqual.respond (h : HostEqual s t) (st : Status) (r : Byte) : SameAnswer (respond st r s) (respond st r t) :=
  ⟨⟨h.chain, h.count, h.finalized, h.err, h.buf, h.digest⟩, rfl⟩

/-- The same error from states that a host cannot tell apart (R233). -/
theorem HostEqual.raise (h : HostEqual s t) (st : Status) : SameAnswer (raise st s) (raise st t) :=
  ⟨⟨h.chain, h.count, h.finalized, rfl, h.buf, h.digest⟩, rfl⟩

/-- UPDATE answers the same (R102). -/
theorem HostEqual.absorb (h : HostEqual s t) (bytes : List Byte) : SameAnswer (absorb bytes s) (absorb bytes t) := by
  by_cases hf : s.finalized = true
  · rw [Machine.absorb, Machine.absorb, if_pos hf, if_pos (h.finalized ▸ hf)]
    exact h.raise _
  · have hf : s.finalized = false := by simpa using hf
    rw [absorb_of_not_finalized hf, absorb_of_not_finalized (h.finalized ▸ hf)]
    exact ((h.withSeq .append).appendBytes (.inl rfl) (.inl rfl) hf bytes).respond _ _

/-- FINAL answers the same (R103). -/
theorem HostEqual.final (h : HostEqual s t) :
    SameAnswer (Machine.respond .ok 0 (if s.finalized then s else Machine.padAndFinish s))
      (Machine.respond .ok 0 (if t.finalized then t else Machine.padAndFinish t)) := by
  rw [← h.finalized]
  split
  · exact h.respond _ _
  · exact (h.padAndFinish (by simpa using ‹¬ s.finalized = true›)).respond _ _

/-- A read of the digest answers the same, since it shows a byte of DIGEST while FINALIZED = 1 alone (R104, R105, R235). -/
theorem HostEqual.readDigest (h : HostEqual s t) (byteOf : Vector Byte 16 → Byte) :
    SameAnswer (readDigest (byteOf s.digest) s) (readDigest (byteOf t.digest) t) := by
  unfold Machine.readDigest
  rw [← h.finalized]
  split
  · rw [h.digest ‹_›]
    exact h.respond _ _
  · exact h.raise _

/-- Every host command answers the same in states that a host cannot tell apart. -/
theorem HostEqual.exec (h : HostEqual s t) {i : Instr} (hc : i.isCommand = true) :
    ∃ s' t', exec i s = .next s' ∧ exec i t = .next t' ∧ SameAnswer s' t' := by
  by_cases hu : i.isUpdate = true
  · exact ⟨_, _, exec_of_isUpdate hu s, exec_of_isUpdate hu t, h.absorb _⟩
  · cases i <;> simp only [Instr.isUpdate, Instr.isCommand, Bool.false_eq_true, not_true] at hu hc
    case init => exact ⟨_, _, rfl, rfl, (hostEqual_newMessage s t).respond _ _⟩
    case final => exact ⟨_, _, rfl, rfl, h.final⟩
    case rdig k => exact ⟨_, _, rfl, rfl, h.readDigest fun d => digestByte d k⟩
    case rhex j => exact ⟨_, _, rfl, rfl, h.readDigest fun d => hexChar (digestNibble d j)⟩
    case rstat => exact ⟨_, _, rfl, rfl, h.statusReg_eq ▸ h.respond _ _⟩

/-! ## Runs -/

/-- Any word, legal or not, completes in both states, with the same answer. -/
theorem HostEqual.runCommand (h : HostEqual s t) (hs : Boundary s) (ht : Boundary t) (w : Word) :
    ∃ s' t', runCommand w s = some s' ∧ runCommand w t = some t' ∧ Boundary s' ∧ Boundary t' ∧ SameAnswer s' t' := by
  cases hd : decodeCommand w with
  | ok i =>
    obtain ⟨s', t', hs', ht', hanswer⟩ := (h.accept_issue w).exec (decodeCommand_isCommand hd)
    obtain ⟨hruns, hbs⟩ := runCommand_of_decode hs hd hs'
    obtain ⟨hrunt, hbt⟩ := runCommand_of_decode ht hd ht'
    exact ⟨s', t', hruns, hrunt, hbs, hbt, hanswer⟩
  | error r =>
    obtain ⟨hruns, hbs⟩ := runCommand_of_illegal hs hd
    obtain ⟨hrunt, hbt⟩ := runCommand_of_illegal ht hd
    exact ⟨_, _, hruns, hrunt, hbs, hbt, (h.accept_issue w).raise _⟩

/-- Any run completes from both states, with the same responses, in states that a host cannot tell apart. -/
theorem HostEqual.runCommands (h : HostEqual s t) (hs : Boundary s) (ht : Boundary t) (ws : List Word) :
    ∃ rs s' t', runCommands ws s = some (rs, s') ∧ runCommands ws t = some (rs, t') ∧ HostEqual s' t' := by
  induction ws generalizing s t with
  | nil => exact ⟨[], s, t, rfl, rfl, h⟩
  | cons w ws ih =>
    obtain ⟨u, v, hu, hv, hbu, hbv, hword⟩ := h.runCommand hs ht w
    obtain ⟨rs, s', t', hrests, hrestt, hend⟩ := ih hword.toHostEqual hbu hbv
    refine ⟨u.resp :: rs, s', t', runCommands_cons hu hrests, ?_, hend⟩
    rw [hword.resp]
    exact runCommands_cons hv hrestt

/-- Settles O57: the runs show the same responses, and end in states with the same STATUS and the same readable DIGEST. -/
theorem hiddenStateIsUnobservable : Obligations.HiddenStateIsUnobservable := by
  unfold Obligations.HiddenStateIsUnobservable
  intro s t ws hs ht h
  obtain ⟨rs, s', t', hruns, hrunt, hend⟩ := h.runCommands hs ht ws
  rw [observeRun, observeRun, hruns, hrunt, Option.map_some, Option.map_some, hend.statusReg_eq, ← hend.finalized]
  refine ⟨?_, rfl⟩
  split
  · rw [hend.digest ‹_›]
  · rfl

end Sys2Proof.Machine
end

section
/-!
PROOF. A digest or status read repeated at once (R58): the second read finds the DIGEST and the flags that the first one
found, or the ERR that the first one set, and answers alike (O27).
-/

namespace Sys2Proof.Machine

/-- A read of the digest leaves DIGEST as it was, answered or rejected (R104, R105). -/
@[simp] theorem readDigest_digest (b : Byte) (s : State) : (readDigest b s).digest = s.digest := by
  unfold readDigest
  split <;> rfl

/-- A read of the digest leaves FINALIZED as it was, answered or rejected (R104, R105). -/
@[simp] theorem readDigest_finalized (b : Byte) (s : State) : (readDigest b s).finalized = s.finalized := by
  unfold readDigest
  split <;> rfl

/-- A read of the digest, answered or rejected, is idempotent: FINALIZED decides both reads alike (R58, R235). -/
theorem readDigest_readDigest (b : Byte) (s : State) : readDigest b (readDigest b s) = readDigest b s := by
  rw [readDigest, readDigest_finalized]
  unfold readDigest
  split <;> rfl

/-- Settles O27: each read is idempotent, since it changes nothing that its own answer depends on. -/
theorem repeatedReadsAnswerAlike : Obligations.RepeatedReadsAnswerAlike := by
  unfold Obligations.RepeatedReadsAnswerAlike
  intro s t u i hi ht hu
  suffices h : u = t from ⟨congrArg State.resp h, h⟩
  obtain ⟨k, rfl⟩ | ⟨k, rfl⟩ | rfl := hi <;> cases ht <;> cases hu
  · rw [readDigest_digest, readDigest_readDigest]
  · rw [readDigest_digest, readDigest_readDigest]
  · rfl

end Sys2Proof.Machine
end

section
/-!
PROOF. The host's list of events beside a run of commands (R60, R108, R270): no command reads or writes the list, so the
words queued in it run as they would with no list (O14).
-/

namespace Sys2Proof.Machine

/-! ## Commands and the host's list -/

/-- AppendByte neither reads nor writes the host's list. -/
theorem appendByte_withHost (v : Byte) (s : State) (es : List HostEvent) :
    appendByte v { s with host := es } = { appendByte v s with host := es } := by
  by_cases h : fillIndex s.count = 63
  · rw [appendByte_of_eq v s h, appendByte_of_eq v { s with host := es } h, transform_eq, transform_eq]
    rfl
  · rw [appendByte_of_ne v s h, appendByte_of_ne v { s with host := es } h]
    rfl

/-- No append reads or writes the host's list. -/
theorem appendBytes_withHost (vs : List Byte) (s : State) (es : List HostEvent) :
    appendBytes vs { s with host := es } = { appendBytes vs s with host := es } := by
  induction vs generalizing s with
  | nil => rfl
  | cons v vs ih => rw [appendBytes, appendBytes, appendByte_withHost, ih]

/-- UPDATE neither reads nor writes the host's list (R102). -/
theorem absorb_withHost (bytes : List Byte) (s : State) (es : List HostEvent) :
    absorb bytes { s with host := es } = { absorb bytes s with host := es } := by
  unfold absorb
  by_cases hf : s.finalized = true
  · rw [if_pos hf, if_pos hf]
    rfl
  · rw [if_neg hf, if_neg hf]
    exact congrArg (respond .ok 0) (appendBytes_withHost bytes { s with seq := .append } es)

/-- PadAndFinish neither reads nor writes the host's list (R148). -/
theorem padAndFinish_withHost (s : State) (es : List HostEvent) :
    padAndFinish { s with host := es } = { padAndFinish s with host := es } :=
  congrArg freezeDigest (appendBytes_withHost (padBytes s.count) { s with seq := .pad } es)

/-- FINAL neither reads nor writes the host's list (R103). -/
theorem final_withHost (s : State) (es : List HostEvent) :
    respond .ok 0 (if s.finalized then { s with host := es } else padAndFinish { s with host := es }) =
      { respond .ok 0 (if s.finalized then s else padAndFinish s) with host := es } := by
  by_cases hf : s.finalized = true
  · rw [if_pos hf, if_pos hf]
    rfl
  · rw [if_neg hf, if_neg hf, padAndFinish_withHost]
    rfl

/-- A read of the digest neither reads nor writes the host's list (R104, R105). -/
theorem readDigest_withHost (b : Byte) (s : State) (es : List HostEvent) :
    readDigest b { s with host := es } = { readDigest b s with host := es } := by
  unfold readDigest
  by_cases hf : s.finalized = true
  · rw [if_pos hf, if_pos hf]
    rfl
  · rw [if_neg hf, if_neg hf]
    rfl

/-- Every host command has a next state, and neither reads nor writes the host's list. -/
theorem exec_withHost {i : Instr} (hc : i.isCommand = true) (s : State) :
    ∃ t, exec i s = .next t ∧ ∀ es, exec i { s with host := es } = .next { t with host := es } := by
  by_cases hu : i.isUpdate = true
  · exact ⟨_, exec_of_isUpdate hu s, fun es => by rw [exec_of_isUpdate hu, absorb_withHost]⟩
  · cases i <;> simp only [Instr.isUpdate, Instr.isCommand, Bool.false_eq_true, not_true] at hu hc
    case init => exact ⟨_, rfl, fun _ => rfl⟩
    case final => exact ⟨_, rfl, fun es => congrArg Host.Outcome.next (final_withHost s es)⟩
    case rdig k => exact ⟨_, rfl, fun es => congrArg Host.Outcome.next (readDigest_withHost _ s es)⟩
    case rhex j => exact ⟨_, rfl, fun es => congrArg Host.Outcome.next (readDigest_withHost _ s es)⟩
    case rstat => exact ⟨_, rfl, fun _ => rfl⟩

/-- The host's list is no part of what makes a command boundary. -/
theorem Boundary.withHost {s : State} (hb : Boundary s) (es : List HostEvent) : Boundary { s with host := es } :=
  ⟨hb.idle, hb.noReset, hb.oneHost⟩

/-- A word accepted at a boundary, legal or not, is answered in one step, the same whatever list the host has (R60, R107). -/
theorem step_withHost {s : State} (hb : Boundary s) (hv : s.cmdValid = true) :
    ∃ t, Answered (accept s) t ∧ ∀ es, step { s with host := es } = .next { t with host := es } := by
  cases hd : decodeCommand s.cmd with
  | ok i =>
    have hc := decodeCommand_isCommand hd
    obtain ⟨t, ht, htes⟩ := exec_withHost hc (accept s)
    exact ⟨t, exec_answered hc ht, fun es => (cycle_of_decode (hb.withHost es) hv hd).trans (htes es)⟩
  | error r =>
    exact ⟨raise .eIllegal (accept s), ⟨rfl, rfl, rfl, rfl, rfl⟩, fun es => cycle_of_illegal (hb.withHost es) hv hd⟩

/-! ## Queued words -/

/-- A run of the machine goes on after its first step. -/
theorem coreRun_succ {M : Host.Core} {s t : M.State} (h : M.step s = .next t) (n : Nat) :
    M.run (n + 1) s = M.run n t := by
  rw [Host.Core.run, h]

/-- An idle engine with no command waiting takes the word that the host has queued next (R108, R246). -/
theorem step_of_queuedWord {s : State} (hb : Boundary s) (hv : s.cmdValid = false) (w : Word) (es : List HostEvent) :
    step { s with host := .issue w :: es } = .next (State.issue w { s with host := es }) := by
  simp [step, cycle, hb.idle, hb.noReset, hb.oneHost, hv, hostTurn, drive, State.issue]

/-- One queued word: the host's step and the engine's lead to the state in which `runCommand` answers it, with the rest of
the list still queued (R60, R108). -/
theorem queuedWord_runs {s : State} (hb : Boundary s) (hv : s.cmdValid = false) (w : Word) :
    ∃ t, runCommand w { s with host := [] } = some { t with host := [] } ∧ Boundary t ∧ t.cmdValid = false ∧
      ∀ es n, Host.Core.run core (n + 2) { s with host := .issue w :: es } = Host.Core.run core n { t with host := es } := by
  have hissued : Boundary (s.issue w) := ⟨hb.idle, hb.noReset, hb.oneHost⟩
  obtain ⟨t, hanswer, hstep⟩ := step_withHost hissued rfl
  have hanswer' : Answered (accept (State.issue w { s with host := [] })) { t with host := [] } :=
    ⟨hanswer.respValid, hanswer.idle, hanswer.cmdValid, hanswer.rst, hanswer.secondHost⟩
  obtain ⟨hrun, hbt⟩ := runCommand_of_answered (hb.withHost []) (hstep []) hanswer'
  refine ⟨t, hrun, hbt.withHost t.host, hanswer.cmdValid, fun es n => ?_⟩
  have hhost := coreRun_succ (M := core) (step_of_queuedWord hb hv w es) (n + 1)
  exact hhost.trans (coreRun_succ (hstep es) n)

/-- Queued words run as the commands of a run, two steps each (R60, R108, R270). -/
theorem queuedWords_run (ws : List Word) {s : State} (hb : Boundary s) (hv : s.cmdValid = false) :
    ∃ rs t, runCommands ws { s with host := [] } = some (rs, t) ∧
      Host.Core.run core (2 * ws.length) { s with host := ws.map .issue } = .next t := by
  induction ws generalizing s with
  | nil => exact ⟨[], { s with host := [] }, rfl, rfl⟩
  | cons w ws ih =>
    obtain ⟨t, hword, hbt, hvt, hfirst⟩ := queuedWord_runs hb hv w
    obtain ⟨rs, u, hwords, hrest⟩ := ih hbt hvt
    exact ⟨_, u, runCommands_cons hword hwords, (hfirst _ _).trans hrest⟩

/-- Settles O14: the queued words are the whole of the host's list. -/
theorem queuedCommandsRunInOrder : Obligations.QueuedCommandsRunInOrder := by
  unfold Obligations.QueuedCommandsRunInOrder
  intro ws s hb hv hhost
  have hrun := queuedWords_run ws hb hv
  rw [← hhost] at hrun
  exact hrun

end Sys2Proof.Machine
end

section
/-!
PROOF. The command decoder said once, one equation for each OP (R72, R73, R80); decoder and encoder are inverse (O1, O2); and
the decoder is the rule's cascade with the rule's grounds of rejection (O3, O5, O6).
-/

namespace Sys2Proof

open Sys2Proof.Machine

/-! ## Fields that are zero, and words from their fields -/

/-- A bit field that reaches the top of its value is zero exactly when the value fits below it. -/
theorem extractLsb'_eq_zero_iff_div {n : Nat} (x : BitVec n) {lo len : Nat} (h : n ≤ lo + len) :
    x.extractLsb' lo len = 0 ↔ x.toNat / 2 ^ lo = 0 := by
  have hlt : x.toNat / 2 ^ lo < 2 ^ len := by
    apply Nat.div_lt_of_lt_mul
    rw [← Nat.pow_add]
    exact x.isLt.trans_le (Nat.pow_le_pow_right (by omega) h)
  rw [← BitVec.toNat_inj, toNat_extractLsb'_eq, Nat.mod_eq_of_lt hlt]
  rfl

/-- DATA with nothing above its low `m` bits is those bits below zeros (R75). -/
theorem zero_append_low {n m : Nat} {x : BitVec (n + m)} (h : x.extractLsb' m n = 0) :
    0#n ++ x.extractLsb' 0 m = x := by
  have hx := BitVec.extractLsb'_append_extractLsb' (x := x)
  rwa [h] at hx

/-- DATA is its three lanes (R71). -/
theorem append_lanes (x : BitVec 24) : x.extractLsb' 16 8 ++ x.extractLsb' 8 8 ++ x.extractLsb' 0 8 = x := by
  rw [BitVec.extractLsb'_append_extractLsb'_eq_extractLsb' (show 16 = 8 + 8 from rfl)]
  exact BitVec.extractLsb'_append_extractLsb'

/-! The fields of R70, where a statement writes their bits out. -/

theorem extractLsb'_eq_op (w : Word) : w.extractLsb' 28 4 = w.op := rfl
theorem extractLsb'_eq_arg (w : Word) : w.extractLsb' 24 4 = w.arg := rfl
theorem extractLsb'_eq_data (w : Word) : w.extractLsb' 0 24 = w.data := rfl

/-- A lane of a word is a lane of its DATA (R71). -/
theorem lane_eq_data (w : Word) {k : Nat} (h : k < 3) : w.lane k = w.data.extractLsb' (8 * k) 8 := by
  have := commandWord_lane w.op w.arg w.data k h
  rwa [commandWord_fields] at this

/-- A word with the given fields is the command word built from them (R70). -/
theorem commandWord_eq {w : Word} {op arg : BitVec 4} {data : BitVec 24} (hop : w.op = op) (harg : w.arg = arg)
    (hdata : data = w.data) : commandWord op arg data = w := by
  rw [hdata, ← hop, ← harg, commandWord_fields]

/-! ## The decoder, one equation for each OP (R72, R73, R79, R80) -/

section
variable {w : Word}

theorem decodeCommand_of_op_one (h : w.op = 1) :
    decodeCommand w = if w.arg = 0 ∧ w.data = 0 then .ok .init else .error .reservedNotZero := by
  simp [decodeCommand, decodeZeroArg, h]

theorem decodeCommand_of_op_three (h : w.op = 3) :
    decodeCommand w = if w.arg = 0 ∧ w.data = 0 then .ok .final else .error .reservedNotZero := by
  simp [decodeCommand, decodeZeroArg, h]

theorem decodeCommand_of_op_four (h : w.op = 4) :
    decodeCommand w =
      if w.arg = 0 ∧ w.data.extractLsb' 4 20 = 0 then .ok (.rdig (w.data.extractLsb' 0 4))
      else .error .reservedNotZero := by
  simp [decodeCommand, decodeZeroArg, h]

theorem decodeCommand_of_op_five (h : w.op = 5) :
    decodeCommand w =
      if w.arg = 0 ∧ w.data.extractLsb' 5 19 = 0 then .ok (.rhex (w.data.extractLsb' 0 5))
      else .error .reservedNotZero := by
  simp [decodeCommand, decodeZeroArg, h]

theorem decodeCommand_of_op_six (h : w.op = 6) :
    decodeCommand w = if w.arg = 0 ∧ w.data = 0 then .ok .rstat else .error .reservedNotZero := by
  simp [decodeCommand, decodeZeroArg, h]

theorem decodeCommand_of_unassigned (h : w.op.toNat = 0 ∨ 7 ≤ w.op.toNat) :
    decodeCommand w = .error .unassignedOp := by
  unfold decodeCommand
  split
  case h_7 => rfl
  all_goals omega

theorem decodeCommand_update_zero (h : w.op = 2) (ha : w.arg = 0) :
    decodeCommand w = if w.data = 0 then .ok .update0 else .error .reservedNotZero := by
  simp [decodeCommand, decodeUpdate, h, ha]

theorem decodeCommand_update_one (h : w.op = 2) (ha : w.arg = 1) :
    decodeCommand w =
      if w.data.extractLsb' 8 16 = 0 then .ok (.update1 (w.data.extractLsb' 0 8)) else .error .reservedNotZero := by
  simp [decodeCommand, decodeUpdate, h, ha, lane_eq_data]

theorem decodeCommand_update_two (h : w.op = 2) (ha : w.arg = 2) :
    decodeCommand w =
      if w.data.extractLsb' 16 8 = 0 then .ok (.update2 (w.data.extractLsb' 0 8) (w.data.extractLsb' 8 8))
      else .error .reservedNotZero := by
  simp [decodeCommand, decodeUpdate, h, ha, lane_eq_data]

theorem decodeCommand_update_three (h : w.op = 2) (ha : w.arg = 3) :
    decodeCommand w =
      .ok (.update3 (w.data.extractLsb' 0 8) (w.data.extractLsb' 8 8) (w.data.extractLsb' 16 8)) := by
  simp [decodeCommand, decodeUpdate, h, ha, lane_eq_data]

theorem decodeCommand_update_count (h : w.op = 2) (ha : 3 < w.arg.toNat) :
    decodeCommand w = .error .updateCount := by
  simp only [decodeCommand, h]
  show decodeUpdate w = _
  unfold decodeUpdate
  split
  case h_5 => rfl
  all_goals omega

end

/-- The values of OP (R72): the six assigned ones, and the rest. -/
theorem op_cases (op : BitVec 4) :
    op = 1 ∨ op = 2 ∨ op = 3 ∨ op = 4 ∨ op = 5 ∨ op = 6 ∨ (op.toNat = 0 ∨ 7 ≤ op.toNat) := by
  revert op
  decide

/-- The values of UPDATE's ARG (R73): the four byte counts, and the rest. -/
theorem updateArg_cases (arg : BitVec 4) : arg = 0 ∨ arg = 1 ∨ arg = 2 ∨ arg = 3 ∨ 3 < arg.toNat := by
  revert arg
  decide

/-! ## Decoder and encoder are inverse -/

/-- The step index of a micro-operation decodes to it (R78). -/
theorem decodeStep_of_encode {i : Instr} {k : BitVec 6} (h : encode i = .step6 k) : decodeStep k = i := by
  cases i <;> simp only [encode, reduceCtorEq, Encoding.step6.injEq] at h <;> subst h <;>
    simp [decodeStep, stepIndex_fields]

/-- Settles O1: a command decodes from its word, a micro-operation from its step index. -/
theorem decodeInvertsEncode : Obligations.DecodeInvertsEncode := by
  unfold Obligations.DecodeInvertsEncode
  intro i
  cases h : encode i with
  | cmd32 w => exact decodeCommand_of_encodeCommand (by rw [encodeCommand, h])
  | step6 k => exact congrArg Except.ok (decodeStep_of_encode h)

/-- Every step index is the encoding of its micro-operation (R78). -/
theorem encode_decodeStep (k : BitVec 6) : encode (decodeStep k) = .step6 k := by
  revert k
  decide

/-- A test that answers with an instruction passed. -/
theorem ok_of_ite {p : Prop} [Decidable p] {i j : Instr} {r : IllegalReason}
    (h : (if p then Except.ok j else .error r) = .ok i) : p ∧ j = i := by
  split at h <;> cases h
  exact ⟨‹p›, rfl⟩

/-- A word that decodes is the encoding of its command: the fields that its instruction does not show are zero (R75). -/
theorem encode_of_decodeCommand {w : Word} {i : Instr} (hd : decodeCommand w = .ok i) : encode i = .cmd32 w := by
  obtain h | h | h | h | h | h | h := op_cases w.op
  case inr.inl =>
    obtain ha | ha | ha | ha | ha := updateArg_cases w.arg
    · obtain ⟨hz, rfl⟩ := ok_of_ite (decodeCommand_update_zero h ha ▸ hd)
      exact congrArg _ (commandWord_eq h ha hz.symm)
    · obtain ⟨hz, rfl⟩ := ok_of_ite (decodeCommand_update_one h ha ▸ hd)
      exact congrArg _ (commandWord_eq h ha (zero_append_low (n := 16) (m := 8) hz))
    · obtain ⟨hz, rfl⟩ := ok_of_ite (decodeCommand_update_two h ha ▸ hd)
      have hdata := append_lanes w.data
      rw [hz] at hdata
      exact congrArg _ (commandWord_eq h ha hdata)
    · cases (decodeCommand_update_three h ha).symm.trans hd
      exact congrArg _ (commandWord_eq h ha (append_lanes w.data))
    · cases (decodeCommand_update_count h ha).symm.trans hd
  · obtain ⟨⟨ha, hz⟩, rfl⟩ := ok_of_ite (decodeCommand_of_op_one h ▸ hd)
    exact congrArg _ (commandWord_eq h ha hz.symm)
  · obtain ⟨⟨ha, hz⟩, rfl⟩ := ok_of_ite (decodeCommand_of_op_three h ▸ hd)
    exact congrArg _ (commandWord_eq h ha hz.symm)
  · obtain ⟨⟨ha, hz⟩, rfl⟩ := ok_of_ite (decodeCommand_of_op_four h ▸ hd)
    exact congrArg _ (commandWord_eq h ha (zero_append_low (n := 20) (m := 4) hz))
  · obtain ⟨⟨ha, hz⟩, rfl⟩ := ok_of_ite (decodeCommand_of_op_five h ▸ hd)
    exact congrArg _ (commandWord_eq h ha (zero_append_low (n := 19) (m := 5) hz))
  · obtain ⟨⟨ha, hz⟩, rfl⟩ := ok_of_ite (decodeCommand_of_op_six h ▸ hd)
    exact congrArg _ (commandWord_eq h ha hz.symm)
  · cases (decodeCommand_of_unassigned h).symm.trans hd

/-- Settles O2: a command word is determined by its instruction's fields, a step index by its own. -/
theorem encodeInvertsDecode : Obligations.EncodeInvertsDecode := by
  unfold Obligations.EncodeInvertsDecode
  intro e i h
  cases e with
  | cmd32 w => exact encode_of_decodeCommand h
  | step6 k =>
    cases h
    exact encode_decodeStep k

/-! ## The rule's cascade and its grounds (O3, O5, O6) -/

/-- A test of the decoder, as R80 writes it. -/
theorem toOption_ite (p : Prop) [Decidable p] (i : Instr) (r : IllegalReason) :
    (if p then Except.ok i else .error r).toOption = if p then some i else none := by
  split <;> rfl

/-- Settles O3: OP, and ARG for an UPDATE, leave one test of the cascade, which is the decoder's own. -/
theorem decoderIsTheRuleCascade : Obligations.DecoderIsTheRuleCascade := by
  unfold Obligations.DecoderIsTheRuleCascade
  intro w
  simp only [extractLsb'_eq_op, extractLsb'_eq_arg, extractLsb'_eq_data]
  obtain h | h | h | h | h | h | h := op_cases w.op
  case inr.inl =>
    obtain ha | ha | ha | ha | ha := updateArg_cases w.arg
    · simp [decodeCommand_update_zero h ha, toOption_ite, h, ha]
    · simp [decodeCommand_update_one h ha, toOption_ite, h, ha]
    · simp [decodeCommand_update_two h ha, toOption_ite, h, ha]
    · simp [decodeCommand_update_three h ha, h, ha, Except.toOption]
    · rw [decodeCommand_update_count h ha]
      have hne (k : BitVec 4) (hk : k.toNat ≤ 3) : w.arg ≠ k := by
        rintro rfl
        omega
      simp [h, hne, Except.toOption]
  · simp [decodeCommand_of_op_one h, toOption_ite, h]
  · simp [decodeCommand_of_op_three h, toOption_ite, h]
  · simp [decodeCommand_of_op_four h, toOption_ite, h]
  · simp [decodeCommand_of_op_five h, toOption_ite, h]
  · simp [decodeCommand_of_op_six h, toOption_ite, h]
  · rw [decodeCommand_of_unassigned h]
    have hne (k : BitVec 4) (h0 : k.toNat ≠ 0) (h7 : k.toNat < 7) : w.op ≠ k := by
      rintro rfl
      omega
    simp [hne, Except.toOption]

/-- Where the decoder makes one test of the reserved fields, that test is the only ground of an error. -/
theorem errors_of_test {w : Word} {p : Prop} [Decidable p] {i : Instr}
    (hd : decodeCommand w = if p then .ok i else .error .reservedNotZero) :
    (decodeCommand w = .error .unassignedOp ↔ False) ∧ (decodeCommand w = .error .updateCount ↔ False) ∧
      (decodeCommand w = .error .reservedNotZero ↔ ¬p) := by
  rw [hd]
  split <;> simp_all

/-- Settles O5: an OP that is not assigned and an UPDATE's count have one ground each; every other word has one test, of the
fields that must be 0. -/
theorem illegalWordGrounds : Obligations.IllegalWordGrounds := by
  unfold Obligations.IllegalWordGrounds
  intro w
  simp only [extractLsb'_eq_op, extractLsb'_eq_arg, extractLsb'_eq_data]
  have hhigh (lo len : Nat) (hlen : 24 ≤ lo + len) : w.data.extractLsb' lo len = 0 ↔ w.data.toNat / 2 ^ lo = 0 :=
    extractLsb'_eq_zero_iff_div w.data hlen
  have harg : w.arg = 0 ↔ w.arg.toNat = 0 := BitVec.toNat_inj.symm
  have hdata : w.data = 0 ↔ w.data.toNat = 0 := BitVec.toNat_inj.symm
  obtain h | h | h | h | h | h | h := op_cases w.op
  case inr.inl =>
    have hop : w.op.toNat = 2 := congrArg BitVec.toNat h
    obtain ha | ha | ha | ha | ha := updateArg_cases w.arg
    · obtain ⟨hunassigned, hcount, hreserved⟩ := errors_of_test (decodeCommand_update_zero h ha)
      rw [hunassigned, hcount, hreserved, hop, ha, hdata]
      simp
    · obtain ⟨hunassigned, hcount, hreserved⟩ := errors_of_test (decodeCommand_update_one h ha)
      rw [hunassigned, hcount, hreserved, hop, ha, hhigh 8 16 (by omega)]
      simp
    · obtain ⟨hunassigned, hcount, hreserved⟩ := errors_of_test (decodeCommand_update_two h ha)
      rw [hunassigned, hcount, hreserved, hop, ha, hhigh 16 8 (by omega)]
      simp
    · have := w.data.isLt
      rw [decodeCommand_update_three h ha, hop, ha]
      simpa
    · rw [decodeCommand_update_count h ha, hop]
      simp [ha]
  · have hop : w.op.toNat = 1 := congrArg BitVec.toNat h
    obtain ⟨hunassigned, hcount, hreserved⟩ := errors_of_test (decodeCommand_of_op_one h)
    rw [hunassigned, hcount, hreserved, not_and_or, hop, harg, hdata]
    simp
  · have hop : w.op.toNat = 3 := congrArg BitVec.toNat h
    obtain ⟨hunassigned, hcount, hreserved⟩ := errors_of_test (decodeCommand_of_op_three h)
    rw [hunassigned, hcount, hreserved, not_and_or, hop, harg, hdata]
    simp
  · have hop : w.op.toNat = 4 := congrArg BitVec.toNat h
    obtain ⟨hunassigned, hcount, hreserved⟩ := errors_of_test (decodeCommand_of_op_four h)
    rw [hunassigned, hcount, hreserved, not_and_or, hop, harg, hhigh 4 20 (by omega)]
    simp
  · have hop : w.op.toNat = 5 := congrArg BitVec.toNat h
    obtain ⟨hunassigned, hcount, hreserved⟩ := errors_of_test (decodeCommand_of_op_five h)
    rw [hunassigned, hcount, hreserved, not_and_or, hop, harg, hhigh 5 19 (by omega)]
    simp
  · have hop : w.op.toNat = 6 := congrArg BitVec.toNat h
    obtain ⟨hunassigned, hcount, hreserved⟩ := errors_of_test (decodeCommand_of_op_six h)
    rw [hunassigned, hcount, hreserved, not_and_or, hop, harg, hdata]
    simp
  · rw [decodeCommand_of_unassigned h]
    have hne (k : Nat) (h0 : k ≠ 0) (h7 : k < 7) : w.op.toNat ≠ k := by omega
    simp [h, hne]

/-- Settles O6: each word is decoded. -/
theorem writtenWordsDecode : Obligations.WrittenWordsDecode := by
  unfold Obligations.WrittenWordsDecode
  decide

end Sys2Proof
end

section
/-!
PROOF. The rows of the opcode table (R72, R80) cover the legal words, each word once (O4).
-/

namespace Sys2Proof

open Laws

/-- An instruction's encoding falls under its own row, for every instruction. -/
theorem matchesTableRow (i : Instr) : MatchesTableRow.Statement i := by
  cases i with
  | init => exact MatchesTableRow.init
  | update0 => exact MatchesTableRow.update0
  | update1 m0 => exact MatchesTableRow.update1 m0
  | update2 m0 m1 => exact MatchesTableRow.update2 m0 m1
  | update3 m0 m1 m2 => exact MatchesTableRow.update3 m0 m1 m2
  | final => exact MatchesTableRow.final
  | rdig k => exact MatchesTableRow.rdig k
  | rhex j => exact MatchesTableRow.rhex j
  | rstat => exact MatchesTableRow.rstat
  | ff q p => exact MatchesTableRow.ff q p
  | gg q p => exact MatchesTableRow.gg q p
  | hh q p => exact MatchesTableRow.hh q p
  | ii q p => exact MatchesTableRow.ii q p

/-- A legal word falls under the row of its command. -/
theorem row_covers_of_decodeCommand {w : Word} {i : Instr} (hd : decodeCommand w = .ok i) :
    i.row ∈ commandRows ∧ i.row.covers w.toNat = true := by
  obtain ⟨hcovers, hmem⟩ := matchesTableRow i
  rw [encode_of_decodeCommand hd] at hcovers
  rw [if_pos (decodeCommand_isCommand hd)] at hmem
  exact ⟨hmem, hcovers⟩

/-- A word under a row whose mask leaves out the low `n` bits of DATA has the row's OP and ARG, and DATA below `2 ^ n`. -/
theorem fields_of_covers {w : Word} {name : String} {op arg : BitVec 4} {n pattern mask : Nat} (hn : n ≤ 24)
    (hm : mask = (BitVec.allOnes 32 <<< n).toNat) (hp : pattern = op.toNat * 2 ^ 28 + arg.toNat * 2 ^ 24)
    (h : (⟨name, 32, pattern, mask⟩ : TableRow).covers w.toNat = true) :
    w.op = op ∧ w.arg = arg ∧ w.data.toNat / 2 ^ n = 0 := by
  have hmasked : w.toNat / 2 ^ n * 2 ^ n = pattern := by
    have hle := Nat.div_mul_le_self w.toNat (2 ^ n)
    have h : w.toNat &&& mask = pattern := by simpa [TableRow.covers] using h
    rw [← h, hm, ← BitVec.toNat_and, MatchesTableRow.mask_low, BitVec.toNat_shiftLeft, BitVec.toNat_ushiftRight,
      Nat.shiftLeft_eq, Nat.shiftRight_eq_div_pow, Nat.mod_eq_of_lt (hle.trans_lt w.isLt)]
  have hsplit := Nat.div_add_mod' w.toNat (2 ^ n)
  have hlow : w.toNat % 2 ^ n < 2 ^ n := Nat.mod_lt _ (Nat.two_pow_pos n)
  have hn24 : 2 ^ n ≤ 2 ^ 24 := Nat.pow_le_pow_right (by omega) hn
  have hop := op.isLt
  have harg := arg.isLt
  refine ⟨?_, ?_, ?_⟩
  · apply BitVec.eq_of_toNat_eq
    rw [op_toNat]
    omega
  · apply BitVec.eq_of_toNat_eq
    rw [arg_toNat]
    omega
  · apply Nat.div_eq_of_lt
    rw [data_toNat]
    omega

/-- A word under a row of the table decodes to a command of that row (R80). -/
theorem decodeCommand_of_row_covers {w : Word} {r : TableRow} (hr : r ∈ commandRows) (h : r.covers w.toNat = true) :
    ∃ i, decodeCommand w = .ok i ∧ i.row = r := by
  have hzero (hz : w.data.toNat / 2 ^ 0 = 0) : w.data = 0 := BitVec.eq_of_toNat_eq (by simpa using hz)
  have hhigh {n : Nat} (hz : w.data.toNat / 2 ^ n = 0) (len : Nat) (hlen : 24 ≤ n + len) :
      w.data.extractLsb' n len = 0 := (extractLsb'_eq_zero_iff_div w.data hlen).mpr hz
  simp only [commandRows, List.mem_cons, List.not_mem_nil, or_false] at hr
  obtain rfl | rfl | rfl | rfl | rfl | rfl | rfl | rfl | rfl := hr
  · obtain ⟨hop, harg, hz⟩ := fields_of_covers (op := 1) (arg := 0) (n := 0) (by decide) (by decide) (by decide) h
    exact ⟨_, by rw [decodeCommand_of_op_one hop, if_pos ⟨harg, hzero hz⟩], rfl⟩
  · obtain ⟨hop, harg, hz⟩ := fields_of_covers (op := 2) (arg := 0) (n := 0) (by decide) (by decide) (by decide) h
    exact ⟨_, by rw [decodeCommand_update_zero hop harg, if_pos (hzero hz)], rfl⟩
  · obtain ⟨hop, harg, hz⟩ := fields_of_covers (op := 2) (arg := 1) (n := 8) (by decide) (by decide) (by decide) h
    exact ⟨_, by rw [decodeCommand_update_one hop harg, if_pos (hhigh hz 16 (by decide))], rfl⟩
  · obtain ⟨hop, harg, hz⟩ := fields_of_covers (op := 2) (arg := 2) (n := 16) (by decide) (by decide) (by decide) h
    exact ⟨_, by rw [decodeCommand_update_two hop harg, if_pos (hhigh hz 8 (by decide))], rfl⟩
  · obtain ⟨hop, harg, -⟩ := fields_of_covers (op := 2) (arg := 3) (n := 24) (by decide) (by decide) (by decide) h
    exact ⟨_, decodeCommand_update_three hop harg, rfl⟩
  · obtain ⟨hop, harg, hz⟩ := fields_of_covers (op := 3) (arg := 0) (n := 0) (by decide) (by decide) (by decide) h
    exact ⟨_, by rw [decodeCommand_of_op_three hop, if_pos ⟨harg, hzero hz⟩], rfl⟩
  · obtain ⟨hop, harg, hz⟩ := fields_of_covers (op := 4) (arg := 0) (n := 4) (by decide) (by decide) (by decide) h
    exact ⟨_, by rw [decodeCommand_of_op_four hop, if_pos ⟨harg, hhigh hz 20 (by decide)⟩], rfl⟩
  · obtain ⟨hop, harg, hz⟩ := fields_of_covers (op := 5) (arg := 0) (n := 5) (by decide) (by decide) (by decide) h
    exact ⟨_, by rw [decodeCommand_of_op_five hop, if_pos ⟨harg, hhigh hz 19 (by decide)⟩], rfl⟩
  · obtain ⟨hop, harg, hz⟩ := fields_of_covers (op := 6) (arg := 0) (n := 0) (by decide) (by decide) (by decide) h
    exact ⟨_, by rw [decodeCommand_of_op_six hop, if_pos ⟨harg, hzero hz⟩], rfl⟩

/-- Settles O4: the rows that cover a word are the row of the command it decodes to. -/
theorem tableRowsCoverTheLegalWords : Obligations.TableRowsCoverTheLegalWords := by
  unfold Obligations.TableRowsCoverTheLegalWords
  refine ⟨fun w => ⟨?_, ?_⟩, ?_⟩
  · rintro ⟨i, hd⟩
    exact ⟨i.row, row_covers_of_decodeCommand hd⟩
  · rintro ⟨r, hr, h⟩
    obtain ⟨i, hd, -⟩ := decodeCommand_of_row_covers hr h
    exact ⟨i, hd⟩
  · intro w r r' hr hr' h h'
    obtain ⟨i, hd, rfl⟩ := decodeCommand_of_row_covers hr h
    obtain ⟨i', hd', rfl⟩ := decodeCommand_of_row_covers hr' h'
    cases hd.symm.trans hd'
    rfl

end Sys2Proof
end

section
/-!
PROOF. What the host builds from commands: the words of the assembler (R81, O60), and the expansion of UPDATE_BYTES (R82,
O58).
-/

namespace Sys2Proof.Machine

/-! ## UPDATE instructions -/

/-- The UPDATE of a group of bytes carries those bytes (R102). -/
theorem isUpdate_of_updateInstr {bytes : List Byte} {i : Instr} (h : updateInstr bytes = some i) :
    i.isUpdate = true ∧ i.messageBytes = bytes := by
  unfold updateInstr at h
  split at h <;> cases h <;> exact ⟨rfl, rfl⟩

/-- A group of at most three bytes has an UPDATE (R102). -/
theorem exists_updateInstr {bytes : List Byte} (h : bytes.length ≤ 3) : ∃ i, updateInstr bytes = some i := by
  unfold updateInstr
  split
  case h_5 =>
    simp only [List.length_cons] at h
    omega
  all_goals exact ⟨_, rfl⟩

/-! ## The assembler -/

section
variable {l : AsmLine} {w : Word}

/-- Only a well-formed line has a word (R81). -/
theorem wf_of_assembleLine (h : assembleLine l = some w) : l.wf = true := by
  by_contra hl
  simp [assembleLine, hl] at h

/-- A well-formed UPDATE line is the word of the UPDATE of its bytes (R81). -/
theorem assembleLine_update {bytes : List Nat} (hl : (AsmLine.update bytes).wf = true) :
    ∃ i, updateInstr (bytes.map (BitVec.ofNat 8)) = some i ∧ assembleLine (.update bytes) = encodeCommand i := by
  have hlen : bytes.length ≤ 3 := by
    rw [AsmLine.wf, Bool.and_eq_true] at hl
    simpa using hl.1
  obtain ⟨i, hi⟩ := exists_updateInstr (bytes := bytes.map (BitVec.ofNat 8)) (by simpa using hlen)
  exact ⟨i, hi, by simp [assembleLine, hl, hi]⟩

/-- Every well-formed line has a word (R81). -/
theorem isSome_assembleLine (hl : l.wf = true) : (assembleLine l).isSome = true := by
  cases l with
  | update bytes =>
    obtain ⟨i, hi, heq⟩ := assembleLine_update hl
    obtain ⟨w, hw⟩ := encodeCommand_of_isUpdate (isUpdate_of_updateInstr hi).1
    rw [heq, hw]
    rfl
  | _ =>
    unfold assembleLine
    rw [if_pos hl]
    rfl

end

/-- Bytes that are in range are what their 8-bit patterns say: nothing is truncated (R81). -/
theorem map_toNat_ofNat {bytes : List Nat} (h : bytes.all (· < 256) = true) :
    (bytes.map (BitVec.ofNat 8)).map BitVec.toNat = bytes := by
  have hbyte : ∀ n ∈ bytes, (BitVec.toNat ∘ BitVec.ofNat 8) n = id n := fun n hn =>
    Nat.mod_eq_of_lt (by simpa using List.all_eq_true.mp h n hn)
  rw [List.map_map, List.map_congr_left hbyte, List.map_id]

/-- Settles O60: a line that has a word is well formed, so its operands are the fields of the command that the word
encodes. -/
theorem assemblerNeverTruncates : Obligations.AssemblerNeverTruncates := by
  unfold Obligations.AssemblerNeverTruncates
  refine ⟨?_, ?_, ?_, ?_, ?_, ?_, ?_, ?_⟩
  · intro l
    cases hl : l.wf with
    | true => exact isSome_assembleLine hl
    | false => simp [assembleLine, hl]
  · intro w h
    exact decodeCommand_of_encodeCommand (i := .init) h
  · intro bytes w h
    have hl := wf_of_assembleLine h
    obtain ⟨i, hi, heq⟩ := assembleLine_update hl
    obtain ⟨hu, hbytes⟩ := isUpdate_of_updateInstr hi
    refine ⟨i, decodeCommand_of_encodeCommand (heq ▸ h), hu, ?_⟩
    rw [AsmLine.wf, Bool.and_eq_true] at hl
    rw [hbytes, map_toNat_ofNat hl.2]
  · intro w h
    exact decodeCommand_of_encodeCommand (i := .final) h
  · intro n w h
    have hl := wf_of_assembleLine h
    rw [assembleLine, if_pos hl] at h
    exact ⟨_, decodeCommand_of_encodeCommand h, Nat.mod_eq_of_lt (by simpa [AsmLine.wf] using hl)⟩
  · intro n w h
    have hl := wf_of_assembleLine h
    rw [assembleLine, if_pos hl] at h
    exact ⟨_, decodeCommand_of_encodeCommand h, Nat.mod_eq_of_lt (by simpa [AsmLine.wf] using hl)⟩
  · intro w h
    exact decodeCommand_of_encodeCommand (i := .rstat) h
  · intro n w h
    have hl := wf_of_assembleLine h
    rw [assembleLine, if_pos hl] at h
    cases h
    exact Nat.mod_eq_of_lt (by simpa [AsmLine.wf] using hl)

/-! ## UPDATE_BYTES -/

/-- One UPDATE for each three bytes, and one for a rest of one or two (R82). -/
theorem length_updateGroups (m : List Byte) :
    (updateGroups m).length = m.length / 3 + if m.length % 3 = 0 then 0 else 1 := by
  induction m using updateGroups.induct with
  | case1 => rfl
  | case2 m0 => simp [updateGroups]
  | case3 m0 m1 => simp [updateGroups]
  | case4 m0 m1 m2 rest ih =>
    have hdiv : (rest.length + 3) / 3 = rest.length / 3 + 1 := by omega
    have hmod : (rest.length + 3) % 3 = rest.length % 3 := by omega
    simp only [updateGroups, List.length_cons, ih, hdiv, hmod]
    omega

/-- UPDATE number `t` carries the bytes from `3 * t` on, at most three (R82). -/
theorem getElem?_updateGroups (m : List Byte) (t : Nat) (ht : t < (updateGroups m).length) :
    (updateGroups m)[t]? = updateInstr ((m.drop (3 * t)).take 3) := by
  induction m using updateGroups.induct generalizing t with
  | case1 => simp [updateGroups] at ht
  | case2 m0 =>
    obtain rfl : t = 0 := by simpa [updateGroups] using ht
    rfl
  | case3 m0 m1 =>
    obtain rfl : t = 0 := by simpa [updateGroups] using ht
    rfl
  | case4 m0 m1 m2 rest ih =>
    cases t with
    | zero => rfl
    | succ t => exact ih t (by simpa [updateGroups] using ht)

/-- The commands of UPDATE_BYTES are UPDATEs (R82). -/
theorem all_isUpdate_updateGroups (m : List Byte) : (updateGroups m).all Instr.isUpdate = true := by
  induction m using updateGroups.induct with
  | case1 => rfl
  | case2 m0 => rfl
  | case3 m0 m1 => rfl
  | case4 m0 m1 m2 rest ih => simpa [updateGroups, Instr.isUpdate] using ih

/-- The UPDATEs present the bytes of the message, in order (R82). -/
theorem messageOf_updateGroups (m : List Byte) : messageOf (updateGroups m) = m := by
  induction m using updateGroups.induct with
  | case1 => rfl
  | case2 m0 => rfl
  | case3 m0 m1 => rfl
  | case4 m0 m1 m2 rest ih => simpa [messageOf, updateGroups, Instr.messageBytes] using ih

theorem all_isUpdate_updateBytes (m : List Byte) : (updateBytes m).all Instr.isUpdate = true := by
  cases m with
  | nil => rfl
  | cons b bs => exact all_isUpdate_updateGroups (b :: bs)

theorem messageOf_updateBytes (m : List Byte) : messageOf (updateBytes m) = m := by
  cases m with
  | nil => rfl
  | cons b bs => exact messageOf_updateGroups (b :: bs)

/-- Settles O58: the empty message is one empty UPDATE, and any other is its groups of three bytes. -/
theorem updateBytesExpansion : Obligations.UpdateBytesExpansion := by
  unfold Obligations.UpdateBytesExpansion
  intro m
  refine ⟨?_, ?_, all_isUpdate_updateBytes m, messageOf_updateBytes m⟩
  · cases m with
    | nil => rfl
    | cons b bs => exact length_updateGroups (b :: bs)
  · intro t ht
    cases m with
    | nil =>
      obtain rfl : t = 0 := by simpa [updateBytes] using ht
      rfl
    | cons b bs => exact getElem?_updateGroups (b :: bs) t ht

end Sys2Proof.Machine
end

section
/-!
PROOF. Responses: every command's is well formed (R76, R77, O41), and those of a run of digest reads give the digest's bytes
and characters after FINAL, an error before it (R83, R84, O59), so that HASH gives the digest of its message (R85, O54).
-/

namespace Sys2Proof.Machine

variable {s t : State}

/-! ## The response word (R76) -/

/-- The status of a response word. -/
@[simp] theorem respStatus_respWord (st : Status) (r : Byte) : respStatus (respWord st r) = st.code := by
  apply BitVec.eq_of_toNat_eq
  have := r.isLt
  have := st.code.isLt
  simp only [respStatus, respWord, toNat_append_eq, toNat_extractLsb'_eq, BitVec.toNat_ofNat]
  omega

/-- The data of a response word. -/
@[simp] theorem respData_respWord (st : Status) (r : Byte) : respData (respWord st r) = r := by
  apply BitVec.eq_of_toNat_eq
  have := r.isLt
  simp only [respData, respWord, toNat_append_eq, toNat_extractLsb'_eq, BitVec.toNat_ofNat]
  omega

/-- Bits 23:8 of a response word are zero. -/
theorem respWord_middle (st : Status) (r : Byte) : (respWord st r).extractLsb' 8 16 = 0 := by
  apply BitVec.eq_of_toNat_eq
  have := r.isLt
  simp only [respWord, toNat_append_eq, toNat_extractLsb'_eq, BitVec.toNat_ofNat, BitVec.ofNat_eq_ofNat]
  omega

/-- The codes of R231 are 0 to 3, and OK is the one that is 0. -/
theorem Status.code_le (st : Status) : st.code.toNat ≤ 3 ∧ (st.code = 0 ↔ st = .ok) := by
  cases st <;> decide

/-- Every host command answers with a well-formed response, whose data is zero but for a read (R76, R77). -/
theorem exec_resp {i : Instr} (hc : i.isCommand = true) (he : exec i s = .next t) :
    ∃ st r, t.resp = respWord st r ∧ (st ≠ .ok → r = 0) ∧ (i = .init ∨ i.isUpdate = true ∨ i = .final → r = 0) := by
  obtain ⟨-, rfl⟩ | ⟨-, rfl⟩ | ⟨-, rfl⟩ | ⟨hi, ⟨b, -, rfl⟩ | ⟨-, rfl⟩⟩ | ⟨rfl, rfl⟩ := exec_command_cases hc he
  · exact ⟨.ok, 0, rfl, fun _ => rfl, fun _ => rfl⟩
  · unfold absorb
    split
    · exact ⟨.eFinalized, 0, rfl, fun _ => rfl, fun _ => rfl⟩
    · exact ⟨.ok, 0, rfl, fun _ => rfl, fun _ => rfl⟩
  · exact ⟨.ok, 0, rfl, fun _ => rfl, fun _ => rfl⟩
  · refine ⟨.ok, b, rfl, absurd rfl, ?_⟩
    obtain ⟨k, rfl⟩ | ⟨j, rfl⟩ := hi <;> simp [Instr.isUpdate]
  · exact ⟨.eNotFinal, 0, rfl, fun _ => rfl, fun _ => rfl⟩
  · exact ⟨.ok, _, rfl, absurd rfl, by simp [Instr.isUpdate]⟩

/-- Settles O41: every host command has a next state, in which it has answered with one of R76's words. -/
theorem everyCommandAnswers : Obligations.EveryCommandAnswers := by
  unfold Obligations.EveryCommandAnswers
  intro i s hc
  obtain ⟨t, he, -⟩ := exec_withHost hc s
  have hanswer := exec_answered hc he
  obtain ⟨st, r, hresp, herr, hzero⟩ := exec_resp hc he
  refine ⟨t, he, hanswer.respValid, hanswer.idle, ?_⟩
  rw [hresp, respStatus_respWord, respData_respWord]
  exact ⟨st.code_le.1, respWord_middle st r, fun hne => herr fun hst => hne (st.code_le.2.mpr hst), hzero⟩

/-! ## Runs of digest reads -/

/-- What a digest read whose byte is `b` answers: the byte after FINAL, an error before it (R104, R105, R235). -/
def readAnswer (finalized : Bool) (b : Byte) : Word := if finalized then respWord .ok b else respWord .eNotFinal 0

theorem readDigest_resp (b : Byte) (s : State) : (readDigest b s).resp = readAnswer s.finalized b := by
  unfold readDigest readAnswer
  split <;> rfl

/-- A word that runs a read of the digest is answered, and leaves DIGEST, FINALIZED and the boundary as they were. -/
theorem runCommand_read {i : Instr} {byteOf : Vector Byte 16 → Byte} {w : Word}
    (hread : ∀ u, exec i u = .next (readDigest (byteOf u.digest) u)) (hw : encodeCommand i = some w) (hb : Boundary s) :
    ∃ t, runCommand w s = some t ∧ t.resp = readAnswer s.finalized (byteOf s.digest) ∧ t.digest = s.digest ∧
      t.finalized = s.finalized ∧ Boundary t := by
  obtain ⟨hrun, hbt⟩ := runCommand_of_decode hb (decodeCommand_of_encodeCommand hw) (hread (accept (s.issue w)))
  exact ⟨_, hrun, readDigest_resp _ _, readDigest_digest _ _, readDigest_finalized _ _, hbt⟩

/-- A sequence of digest reads: each answers from the DIGEST and the FINALIZED that the first one found (R83, R84). -/
theorem responses_reads {ι : Type} {instr : ι → Instr} {byteOf : ι → Vector Byte 16 → Byte}
    (hread : ∀ k u, exec (instr k) u = .next (readDigest (byteOf k u.digest) u))
    (hword : ∀ k, (encodeCommand (instr k)).isSome = true) (ks : List ι) (hb : Boundary s) :
    responses (words (ks.map instr)) s = some (ks.map fun k => readAnswer s.finalized (byteOf k s.digest)) := by
  suffices h : ∃ t, runCommands (words (ks.map instr)) s =
      some (ks.map fun k => readAnswer s.finalized (byteOf k s.digest), t) by
    obtain ⟨t, ht⟩ := h
    rw [responses, ht]
    rfl
  induction ks generalizing s with
  | nil => exact ⟨s, rfl⟩
  | cons k ks ih =>
    obtain ⟨w, hw⟩ := Option.isSome_iff_exists.mp (hword k)
    obtain ⟨u, hrun, hresp, hdigest, hfin, hbu⟩ := runCommand_read (hread k) hw hb
    obtain ⟨t, hrest⟩ := ih hbu
    rw [hdigest, hfin] at hrest
    refine ⟨t, ?_⟩
    have hcons := runCommands_cons hrun hrest
    rwa [hresp, words, ← List.filterMap_cons_some hw] at hcons

/-- The bytes of DIGEST by their indices, in order (R83). -/
theorem map_digestByte (d : Vector Byte 16) :
    (List.range 16).map (fun k => digestByte d (BitVec.ofNat 4 k)) = d.toList := by
  apply List.ext_getElem
  · simp
  · intro k hk _
    have hk16 : k % 16 = k := Nat.mod_eq_of_lt (by simpa using hk)
    simp [digestByte, hk16]

/-- DIGEST_BYTES reads the sixteen bytes of DIGEST in order (R83). -/
theorem responses_digestBytes (hb : Boundary s) :
    responses (words digestBytes) s = some (s.digest.toList.map (readAnswer s.finalized)) := by
  rw [← map_digestByte, List.map_map]
  exact responses_reads (byteOf := fun k d => digestByte d (BitVec.ofNat 4 k)) (fun _ _ => rfl) (fun _ => rfl) _ hb

/-- HEXDIGEST reads the 32 characters of DIGEST in order (R84). -/
theorem responses_hexDigest (hb : Boundary s) :
    responses (words hexDigest) s = some ((hexString s.digest).map (readAnswer s.finalized)) := by
  rw [hexString, List.map_map]
  exact responses_reads (byteOf := fun j d => hexChar (digestNibble d (BitVec.ofNat 5 j))) (fun _ _ => rfl) (fun _ => rfl)
    _ hb

/-- After FINAL every read is OK. -/
theorem all_ok_readAnswer (bs : List Byte) :
    (bs.map (readAnswer true)).all (respStatus · == Status.ok.code) = true := by
  simp [readAnswer]

/-- Before FINAL a sequence with a read in it is not OK. -/
theorem not_all_ok_readAnswer {bs : List Byte} (h : bs ≠ []) :
    (bs.map (readAnswer false)).all (respStatus · == Status.ok.code) = false := by
  obtain ⟨b, bs, rfl⟩ := List.exists_cons_of_ne_nil h
  simp [readAnswer, Status.code]

/-- The data of reads after FINAL are the bytes read. -/
theorem map_respData_readAnswer (bs : List Byte) : (bs.map (readAnswer true)).map respData = bs := by
  simp [readAnswer, Function.comp_def]

theorem hexString_ne_nil (d : Vector Byte 16) : hexString d ≠ [] := by
  simp [hexString]

/-- Settles O59: the sequences read the bytes and characters of DIGEST, each answered as FINALIZED says. -/
theorem digestReadSequences : Obligations.DigestReadSequences := by
  unfold Obligations.DigestReadSequences
  intro s hb
  rw [responses_digestBytes hb, responses_hexDigest hb, Option.map_some, Option.map_some, digestBytesResult, hexDigestResult]
  refine ⟨fun hf => ?_, fun hf => ?_⟩
  · rw [hf, all_ok_readAnswer, all_ok_readAnswer, map_respData_readAnswer, map_respData_readAnswer]
    exact ⟨rfl, rfl⟩
  · rw [hf, not_all_ok_readAnswer (by simp), not_all_ok_readAnswer (hexString_ne_nil _)]
    exact ⟨rfl, rfl⟩

/-! ## HASH -/

/-- Any word of a run at a boundary completes, at a boundary (R32, R107). -/
theorem exists_runCommand (hb : Boundary s) (w : Word) : ∃ t, runCommand w s = some t ∧ Boundary t := by
  cases hd : decodeCommand w with
  | ok i =>
    obtain ⟨t, he, -⟩ := exec_withHost (decodeCommand_isCommand hd) (accept (s.issue w))
    exact ⟨t, runCommand_of_decode hb hd he⟩
  | error r => exact ⟨_, runCommand_of_illegal hb hd⟩

/-- A run from a boundary ends at a boundary. -/
theorem Boundary.of_runCommands {ws rs : List Word} (hb : Boundary s) (h : runCommands ws s = some (rs, t)) :
    Boundary t := by
  induction ws generalizing s rs with
  | nil =>
    cases h
    exact hb
  | cons w ws ih =>
    obtain ⟨u, hrun, hbu⟩ := exists_runCommand hb w
    simp only [runCommands, hrun, Option.bind_some, Option.map_eq_some_iff] at h
    obtain ⟨⟨qs, v⟩, hrest, heq⟩ := h
    cases heq
    exact ih hbu hrest

/-- The responses of a run that follows another (R270). -/
theorem responses_append {ws vs rs qs : List Word} (h1 : runCommands ws s = some (rs, t)) (h2 : responses vs t = some qs) :
    responses (ws ++ vs) s = some (rs ++ qs) := by
  obtain ⟨⟨qs, u⟩, hrun, rfl⟩ := Option.map_eq_some_iff.mp h2
  rw [responses, runCommands_append h1 hrun, Option.map_some]

/-- HASH's result is that of its last 32 responses, those of HEXDIGEST (R85). -/
theorem hashResult_of_responses {m : List Byte} {rs qs : List Word} (hlen : rs.length = (updateBytes m).length + 2)
    (h : responses (words (hash m)) s = some (rs ++ qs)) : hashResult m s = some (hexDigestResult qs) := by
  have hdrop : (hash m).length - 32 = rs.length := by
    simp only [hash, hexDigest, List.length_append, List.length_map, List.length_range, List.length_singleton]
    omega
  rw [hashResult, h, Option.map_some, hdrop, List.drop_left]

/-- Settles O54: the commands before HEXDIGEST freeze the digest of the message (O53), which HEXDIGEST then reads. -/
theorem hashGivesTheHexDigest : Obligations.HashGivesTheHexDigest := by
  unfold Obligations.HashGivesTheHexDigest
  intro s m hb
  obtain ⟨t, hrun, hdigest, hfin, -⟩ := hashRunComputesTheDigest s (updateBytes m) hb (all_isUpdate_updateBytes m)
  rw [messageOf_updateBytes] at hdigest
  have hhex := responses_hexDigest (hb.of_runCommands hrun)
  rw [hdigest, hfin] at hhex
  have hall := responses_append hrun hhex
  rw [← words_append] at hall
  rw [hashResult_of_responses (by simp) hall, hexDigestResult, all_ok_readAnswer, map_respData_readAnswer, if_pos rfl]

end Sys2Proof.Machine
end

section
/-!
PROOF. An append to the block buffer, exactly: within the block it only stores (R142); once it fills a block, what is left of
the buffer is clear (R143, R210). So UPDATE's and FINAL's next states before FINAL (O16, O17, O19).
-/

namespace Sys2Proof.Machine

variable {s : State} {vs : List Byte}

/-- The fill index is 63 as a field of COUNT exactly when it is as a number (R141). -/
theorem fillIndex_eq_last_iff (s : State) : fillIndex s.count = 63 ↔ fillNat s = 63 := by
  rw [fillNat, ← fillIndex_toNat, ← BitVec.toNat_inj]
  rfl

/-- The fill index after an append (R141, R142). -/
theorem fillNat_appendBytes (vs : List Byte) (s : State) :
    fillNat (appendBytes vs s) = (fillNat s + vs.length) % 64 := by
  rw [fillNat, fillNat, appendBytes_count, BitVec.toNat_add, BitVec.toNat_ofNat]
  omega

/-! ## Within the block -/

/-- The bytes of a buffer with `vs` in place from index `k` on. -/
def splice (buf : List Byte) (k : Nat) (vs : List Byte) : List Byte := buf.take k ++ vs ++ buf.drop (k + vs.length)

/-- Storing the first byte and then the others stores them all. -/
theorem splice_set {buf : List Byte} {k : Nat} (hk : k < buf.length) (v : Byte) (vs : List Byte) :
    splice (buf.set k v) (k + 1) vs = splice buf k (v :: vs) := by
  rw [splice, splice, take_succ_set _ _ _ hk, List.drop_set_of_lt (by omega), List.length_cons,
    show k + 1 + vs.length = k + (vs.length + 1) by omega]
  simp

/-- An append that does not fill the block stores its bytes from the fill index on, advances COUNT, and changes nothing
else (R142). -/
theorem appendBytes_within (h : fillNat s + vs.length < 64) :
    appendBytes vs s =
        { s with count := s.count + BitVec.ofNat 64 (8 * vs.length), buf := (appendBytes vs s).buf } ∧
      (appendBytes vs s).buf.toList = splice s.buf.toList (fillNat s) vs := by
  induction vs generalizing s with
  | nil => simp [appendBytes, splice]
  | cons v vs ih =>
    rw [List.length_cons] at h
    have hne : fillIndex s.count ≠ 63 := by
      rw [Ne, fillIndex_eq_last_iff]
      omega
    have hfill : fillNat (storeByte v s) = fillNat s + 1 := by
      rw [fillNat_storeByte]
      omega
    obtain ⟨hrest, hbuf⟩ := ih (s := storeByte v s) (by omega)
    rw [← appendBytes_count (v :: vs) s, appendBytes, appendByte_of_ne v s hne]
    refine ⟨?_, ?_⟩
    · rw [hrest]
      rfl
    · rw [hbuf, hfill, storeByte_buf, Vector.toList_set, fillIndex_toNat]
      exact splice_set (by simp; omega) v vs

/-! ## Over the end of the block -/

/-- Between blocks: X is clear, STEP is 0, and BUF is zero from the fill index on. -/
structure Cleared (s : State) : Prop where
  xbuf : s.xbuf = zeroX
  stepCtr : s.stepCtr = 0
  buf : s.buf.toList.drop (fillNat s) = List.replicate (64 - fillNat s) 0

/-- The byte that fills the block leaves a clear buffer (R143, R210). -/
theorem cleared_transform (s : State) : Cleared (transform s) where
  xbuf := transform_xbuf s
  stepCtr := transform_stepCtr s
  buf := by rw [transform_buf, zeroBuf, Vector.toList_replicate, List.drop_replicate]

/-- One more byte leaves BUF clear beyond it (R142, R143). -/
theorem Cleared.appendByte (h : Cleared s) (v : Byte) : Cleared (appendByte v s) := by
  by_cases hlast : fillIndex s.count = 63
  · rw [appendByte_of_eq v s hlast]
    exact cleared_transform _
  · rw [appendByte_of_ne v s hlast]
    have hlt := fillNat_lt s
    have hfill : fillNat (storeByte v s) = fillNat s + 1 := by
      rw [fillIndex_eq_last_iff] at hlast
      rw [fillNat_storeByte]
      omega
    refine ⟨h.xbuf, h.stepCtr, ?_⟩
    rw [hfill, storeByte_buf, Vector.toList_set, fillIndex_toNat, ← fillNat, List.drop_set_of_lt (by omega),
      ← List.drop_drop, h.buf, List.drop_replicate, Nat.sub_sub]

/-- An append leaves BUF clear beyond its bytes. -/
theorem Cleared.appendBytes (h : Cleared s) (vs : List Byte) : Cleared (appendBytes vs s) := by
  induction vs generalizing s with
  | nil => exact h
  | cons v vs ih => exact ih (h.appendByte v)

/-- An append that fills a block, whatever the state before it, leaves BUF clear beyond its bytes, X clear and STEP 0. -/
theorem cleared_of_full (h : 64 ≤ fillNat s + vs.length) : Cleared (appendBytes vs s) := by
  induction vs generalizing s with
  | nil => exact absurd (fillNat_lt s) (by simpa using h)
  | cons v vs ih =>
    rw [List.length_cons] at h
    by_cases hlast : fillIndex s.count = 63
    · rw [appendBytes, appendByte_of_eq v s hlast]
      exact (cleared_transform _).appendBytes vs
    · rw [appendBytes, appendByte_of_ne v s hlast]
      rw [fillIndex_eq_last_iff] at hlast
      have hlt := fillNat_lt s
      exact ih (by rw [fillNat_storeByte]; omega)

/-- The whole buffer of a state that is clear beyond the waiting bytes. -/
theorem Cleared.toList_buf (h : Cleared s) : s.buf.toList = bufTail s ++ List.replicate (64 - fillNat s) 0 := by
  rw [bufTail, ← h.buf, List.take_append_drop]

/-- An append in APPEND or PAD that fills a block: every block that fills up is compressed once, in order, X is clear and
STEP is 0 (R142, R143, R210). -/
theorem appendBytes_full {q : Seq} (hq : q = .append ∨ q = .pad) {n : Nat} (hn : (fillNat s + vs.length) / 64 = n + 1) :
    appendBytes vs { s with seq := q } =
      { s with
        seq := q
        count := s.count + BitVec.ofNat 64 (8 * vs.length)
        chain := absorbBlocks (n + 1) (bufTail s ++ vs) s.chain
        work := (appendBytes vs { s with seq := q }).work
        buf := (appendBytes vs { s with seq := q }).buf
        xbuf := zeroX
        stepCtr := 0
        transforms := s.transforms + (n + 1) } := by
  obtain ⟨hchain, -, htransforms⟩ := appendBytes_absorbed_in q vs s
  rw [List.length_append, length_bufTail, hn] at hchain htransforms
  have hclear : Cleared (appendBytes vs { s with seq := q }) :=
    cleared_of_full (show 64 ≤ fillNat s + vs.length by omega)
  have hframe := appendBytes_frame vs { s with seq := q } hq
  rwa [appendBytes_count, hchain, hclear.xbuf, hclear.stepCtr, htransforms] at hframe

/-! ## UPDATE -/

/-- Settles O16: UPDATE's append stays within the block. -/
theorem updateStoresWithinTheBlock : Obligations.UpdateStoresWithinTheBlock := by
  unfold Obligations.UpdateStoresWithinTheBlock
  intro s bytes i hi hf hlen
  obtain ⟨hrest, hbuf⟩ := appendBytes_within (s := { s with seq := .append }) hlen
  refine ⟨_, (updateInstr_exec hi s).trans (congrArg _ (absorb_of_not_finalized hf bytes)), ?_, hbuf⟩
  exact congrArg (respond .ok 0) hrest

/-- Settles O17: UPDATE carries at most three bytes, so its append fills one block, and the rest of them wait in a clear
buffer. -/
theorem updateCompressesAFullBlock : Obligations.UpdateCompressesAFullBlock := by
  unfold Obligations.UpdateCompressesAFullBlock
  intro s bytes i hi hf hlen
  have hlt := fillNat_lt s
  have hthree := updateInstr_length hi
  have hone : (fillNat s + bytes.length) / 64 = 0 + 1 := by omega
  have hfull : (bufTail s ++ bytes.take (64 - fillNat s)).length = 64 := by
    rw [List.length_append, length_bufTail, List.length_take]
    omega
  have hblock : absorbBlocks 1 (bufTail s ++ bytes) s.chain =
      compressWords s.chain (blockWords (bufTail s ++ bytes.take (64 - fillNat s))) := by
    rw [← absorbBlocks_one _ _ hfull, ← absorbBlocks_append 1 _ (bytes.drop (64 - fillNat s)) _ hfull.ge,
      List.append_assoc, List.take_append_drop]
  have hrest := appendBytes_full (s := s) (.inl rfl) hone
  rw [hblock] at hrest
  refine ⟨_, (updateInstr_exec hi s).trans (congrArg _ (absorb_of_not_finalized hf bytes)),
    congrArg (respond .ok 0) hrest, ?_⟩
  have hclear : Cleared (appendBytes bytes { s with seq := .append }) := cleared_of_full hlen
  have htail := (appendBytes_absorbed_in .append bytes s).tail
  have hfill : fillNat (appendBytes bytes { s with seq := .append }) = fillNat s + bytes.length - 64 := by
    rw [fillNat_appendBytes]
    show (fillNat s + bytes.length) % 64 = _
    omega
  rw [respond_buf, hclear.toList_buf, htail, hfill, List.length_append, length_bufTail, hone, List.drop_append,
    length_bufTail, List.drop_of_length_le (by rw [length_bufTail]; omega), List.nil_append]
  congr 2
  omega

/-! ## FINAL -/

/-- FINAL presents 0x80, the zero bytes up to index 56, and the length (R148, R149). -/
theorem padBytes_eq (s : State) :
    padBytes s.count = [0x80] ++ List.replicate ((119 - fillNat s) % 64) 0 ++ lengthBytes s.count := by
  have hlt := fillNat_lt s
  have hidx : (fillIndex s.count).toNat = fillNat s := fillIndex_toNat s.count
  have hpad : padLen (fillIndex s.count) - 1 = (119 - fillNat s) % 64 := by
    rw [padLen, hidx]
    split <;> omega
  rw [padBytes, hpad]
  rfl

/-- The waiting bytes and FINAL's padding are whole blocks: one, or two when the length has no room in the first (R150). -/
theorem fillNat_add_padBytes (s : State) :
    fillNat s + (padBytes s.count).length = 64 * (if fillNat s ≤ 55 then 1 else 2) := by
  have hlt := fillNat_lt s
  simp only [padBytes_eq, lengthBytes, List.length_append, List.length_replicate, List.length_cons, List.length_nil]
  split <;> omega

/-- Settles O19: the padding fills the one or two blocks that it completes, and freezing the digest ends the command. -/
theorem finalPadsAndFreezesTheDigest : Obligations.FinalPadsAndFreezesTheDigest := by
  unfold Obligations.FinalPadsAndFreezesTheDigest
  intro s hf idx blocks padded
  have hpadded : padded = bufTail s ++ padBytes s.count := by
    rw [padBytes_eq]
    simp only [padded, idx, List.append_assoc]
  have hlen : fillNat s + (padBytes s.count).length = 64 * blocks := fillNat_add_padBytes s
  obtain ⟨n, hn⟩ : ∃ n, blocks = n + 1 := ⟨blocks - 1, by simp only [blocks]; split <;> rfl⟩
  have hfull := appendBytes_full (s := s) (vs := padBytes s.count) (n := n) (.inr rfl) (by omega)
  rw [← hpadded, ← hn] at hfull
  refine ⟨by rw [hpadded, List.length_append, length_bufTail, hlen], _, exec_final_of_not_finalized hf, ?_⟩
  exact congrArg (fun u => respond .ok 0 (freezeDigest u)) hfull

end Sys2Proof.Machine
end

section
/-!
PROOF. The commands that no message byte goes through: INIT, a repeated FINAL, and the reads that succeed (O15, O20, O23,
O26).
-/

namespace Sys2Proof.Machine

/-- An OK response is its data (R76, R231). -/
theorem respWord_ok (r : Byte) : respWord .ok r = r.setWidth 32 := by
  apply BitVec.eq_of_toNat_eq
  have := r.isLt
  simp only [respWord, Status.code, toNat_append_eq, BitVec.toNat_setWidth, BitVec.ofNat_eq_ofNat,
    BitVec.toNat_ofNat]
  omega

/-- STATUS as a number: ERR counts 2 and FINALIZED 1 (R29). -/
theorem statusReg_eq_ofNat (s : State) :
    statusReg s = BitVec.ofNat 8 ((if s.err then 2 else 0) + (if s.finalized then 1 else 0)) := by
  rw [statusReg]
  cases s.err <;> cases s.finalized <;> rfl

/-- Settles O15: INIT writes constants, so a second one writes them again. -/
theorem initResult : Obligations.InitResult := by
  unfold Obligations.InitResult
  exact fun s => ⟨rfl, rfl⟩

/-- Settles O20: the check of FINALIZED comes before any effect. -/
theorem secondFinalChangesNothing : Obligations.SecondFinalChangesNothing := by
  unfold Obligations.SecondFinalChangesNothing
  intro s hf
  rw [exec, execFinal, if_pos hf]
  rfl

/-- Settles O23: the read is answered, and an OK response is its data. -/
theorem rdigReturnsTheDigestByte : Obligations.RdigReturnsTheDigestByte := by
  unfold Obligations.RdigReturnsTheDigestByte
  intro s i hf
  rw [exec, execRdig, readDigest, if_pos hf, respond, respWord_ok]
  rfl

/-- Settles O26: RSTAT answers with STATUS, of which only the low two bits are ever set. -/
theorem rstatReturnsTheStatusRegister : Obligations.RstatReturnsTheStatusRegister := by
  unfold Obligations.RstatReturnsTheStatusRegister
  intro s
  rw [exec, execRstat, respond, respWord_ok, statusReg_eq_ofNat]
  cases s.err <;> cases s.finalized <;> rfl

end Sys2Proof.Machine
end

section
/-!
PROOF. Runs of command words from a command boundary: every word completes (O44), the responses after INIT depend on the words
alone (O56), and UPDATEs leave a state that their message determines, however it is split (O55).
-/

namespace Sys2Proof.Machine

variable {s t : State}

/-! ## Every word completes -/

/-- Settles O44: a word accepted at a boundary is answered in one step, which leaves the host's list as it was. -/
theorem everyWordCompletes : Obligations.EveryWordCompletes := by
  unfold Obligations.EveryWordCompletes
  intro w s hb
  obtain ⟨t, hanswer, hstep⟩ := step_withHost (s := s.issue w) ⟨hb.idle, hb.noReset, hb.oneHost⟩ rfl
  have hanswer' : Answered (accept (s.issue w)) { t with host := s.host } :=
    ⟨hanswer.respValid, hanswer.idle, hanswer.cmdValid, hanswer.rst, hanswer.secondHost⟩
  obtain ⟨hrun, hbt⟩ := runCommand_of_answered hb (hstep s.host) hanswer'
  exact ⟨_, hrun, hbt, by rw [State.ready, hbt.idle, hbt.noReset]; rfl, hanswer'.respValid, rfl⟩

/-! ## INIT erases the past -/

/-- INIT as the first word of a run answers the same from any two boundaries, and leaves states that a host cannot tell
apart (R101, R110). -/
theorem runCommand_init_sameAnswer {w : Word} (hw : decodeCommand w = .ok .init) (hs : Boundary s) (ht : Boundary t) :
    ∃ s' t', runCommand w s = some s' ∧ runCommand w t = some t' ∧ Boundary s' ∧ Boundary t' ∧ SameAnswer s' t' := by
  obtain ⟨hruns, hbs⟩ := runCommand_of_decode hs hw rfl
  obtain ⟨hrunt, hbt⟩ := runCommand_of_decode ht hw rfl
  exact ⟨_, _, hruns, hrunt, hbs, hbt, (hostEqual_newMessage (accept (s.issue w)) (accept (t.issue w))).respond .ok 0⟩

/-- Settles O56: after INIT a host cannot tell the two states apart, so any further run gives the same responses. -/
theorem initErasesThePast : Obligations.InitErasesThePast := by
  unfold Obligations.InitErasesThePast
  intro s t ws hs ht
  obtain ⟨s₁, t₁, hs₁, ht₁, hbs, hbt, hinit⟩ := runCommand_init_sameAnswer (w := 0x10000000) rfl hs ht
  obtain ⟨rs, s₂, t₂, hs₂, ht₂, -⟩ := hinit.toHostEqual.runCommands hbs hbt ws
  rw [responses, responses, runCommands_cons hs₁ hs₂, runCommands_cons ht₁ ht₂, hinit.resp]
  exact ⟨rfl, rfl⟩

/-! ## A message split into UPDATEs -/

/-- `s` with the command and response ports of `p`, and the numbering of RESP's free values. -/
def State.withPorts (s p : State) : State :=
  { s with resp := p.resp, respValid := p.respValid, cmd := p.cmd, cmdValid := p.cmdValid, freeTick := p.freeTick }

/-- AppendByte neither reads nor writes the ports. -/
theorem appendByte_withPorts (v : Byte) (s p : State) : appendByte v (s.withPorts p) = (appendByte v s).withPorts p := by
  by_cases h : fillIndex s.count = 63
  · rw [appendByte_of_eq v s h, appendByte_of_eq v (s.withPorts p) h, transform_eq, transform_eq]
    rfl
  · rw [appendByte_of_ne v s h, appendByte_of_ne v (s.withPorts p) h]
    rfl

/-- No append reads or writes the ports. -/
theorem appendBytes_withPorts (vs : List Byte) (s p : State) :
    appendBytes vs (s.withPorts p) = (appendBytes vs s).withPorts p := by
  induction vs generalizing s with
  | nil => rfl
  | cons v vs ih => rw [appendBytes, appendBytes, appendByte_withPorts, ih]

/-- What UPDATEs that present the message `m` before FINAL make of the state, apart from the ports. -/
def updated (m : List Byte) (s : State) : State := { appendBytes m { s with seq := .append } with seq := .idle }

/-- Writing into SEQ what it holds changes nothing. -/
theorem withSeq_self {q : Seq} (h : s.seq = q) : { s with seq := q } = s := by
  subst h
  rfl

theorem updated_nil (hs : s.seq = .idle) : updated [] s = s := withSeq_self hs

/-- A message is absorbed one part after another. -/
theorem updated_append (m n : List Byte) (s : State) : updated (m ++ n) s = updated n (updated m s) := by
  have hseq : (appendBytes m { s with seq := .append }).seq = .append := by rw [appendBytes_frame _ _ (.inl rfl)]
  have hresume : { updated m s with seq := .append } = appendBytes m { s with seq := .append } := withSeq_self hseq
  rw [updated, updated, hresume, appendBytes_append]

/-- The ports take no part in absorbing a message. -/
theorem updated_withPorts (m : List Byte) (s p : State) : updated m (s.withPorts p) = (updated m s).withPorts p :=
  congrArg (fun u : State => { u with seq := .idle }) (appendBytes_withPorts m { s with seq := .append } p)

/-- UPDATE of a run before FINAL absorbs its bytes, and answers OK (R102). -/
theorem runCommand_update {i : Instr} {w : Word} (hb : Boundary s) (hf : s.finalized = false) (hu : i.isUpdate = true)
    (hw : encodeCommand i = some w) :
    ∃ t, runCommand w s = some t ∧ t.resp = 0 ∧ Boundary t ∧ t.finalized = false ∧
      t = (updated i.messageBytes s).withPorts t := by
  have hnext : absorb i.messageBytes (accept (s.issue w)) =
      respond .ok 0 ((appendBytes i.messageBytes { s with seq := .append }).withPorts (accept (s.issue w))) :=
    (absorb_of_not_finalized (s := accept (s.issue w)) hf _).trans
      (congrArg (respond .ok 0) (appendBytes_withPorts i.messageBytes { s with seq := .append } (accept (s.issue w))))
  obtain ⟨hrun, hbt⟩ := runCommand_of_decode hb (decodeCommand_of_encodeCommand hw)
    ((exec_of_isUpdate hu _).trans (congrArg _ hnext))
  exact ⟨_, hrun, rfl, hbt, (appendBytes_finalized _ (.inl rfl)).trans hf, rfl⟩

/-- UPDATEs of a run before FINAL absorb the message that they present together, and each answers OK (R13, R102). -/
theorem runCommands_updates {us : List Instr} (hb : Boundary s) (hf : s.finalized = false)
    (hus : us.all Instr.isUpdate = true) :
    ∃ t, runCommands (words us) s = some (List.replicate us.length 0, t) ∧ t = (updated (messageOf us) s).withPorts t := by
  induction us generalizing s with
  | nil => exact ⟨s, rfl, by rw [messageOf, List.flatMap_nil, updated_nil hb.idle]; rfl⟩
  | cons i us ih =>
    rw [List.all_cons, Bool.and_eq_true] at hus
    obtain ⟨w, hw⟩ := encodeCommand_of_isUpdate hus.1
    obtain ⟨u, hrun, hresp, hbu, hfu, hu⟩ := runCommand_update hb hf hus.1 hw
    obtain ⟨t, hruns, ht⟩ := ih hbu hfu hus.2
    refine ⟨t, ?_, ?_⟩
    · have hcons := runCommands_cons hrun hruns
      rwa [hresp, ← List.replicate_succ, words, ← List.filterMap_cons_some hw] at hcons
    · rw [hu, updated_withPorts] at ht
      rw [messageOf, List.flatMap_cons, updated_append]
      exact ht

/-- Settles O55: both runs end in the state that their common message determines, apart from the ports. -/
theorem incrementalEquivalence : Obligations.IncrementalEquivalence := by
  unfold Obligations.IncrementalEquivalence
  intro s us vs hb hf hus hvs hm
  obtain ⟨t, hrunt, ht⟩ := runCommands_updates hb hf hus
  obtain ⟨u, hrunu, hu⟩ := runCommands_updates hb hf hvs
  refine ⟨t, u, hrunt, hrunu, ?_⟩
  show u = t.withPorts u
  calc u = (updated (messageOf us) s).withPorts u := by rw [hm]; exact hu
    _ = ((updated (messageOf us) s).withPorts t).withPorts u := rfl
    _ = t.withPorts u := by rw [← ht]

end Sys2Proof.Machine
end

section
/-!
PROOF. Arithmetic on COUNT and the fill index: the padding's length on every fill index (O21), and the carry of COUNT + 8 from
COUNT_LO into COUNT_HI (O22).
-/

namespace Sys2Proof.Machine

/-! ## The padding -/

/-- One form of padLen for every fill index: the 0x80 byte and z = (55 - idx) mod 64 zero bytes (R149). -/
theorem padLen_eq_succ_zeros (idx : BitVec 6) : padLen idx = 1 + (119 - idx.toNat) % 64 := by
  have hlt := idx.isLt
  rw [padLen]
  split <;> omega

/-- Settles O21: the single form of padLen gives its range, the fill index it reaches and both cases of its definition, and
`padBytes_eq` gives FINAL's bytes. -/
theorem paddingReachesFiftySix : Obligations.PaddingReachesFiftySix := by
  unfold Obligations.PaddingReachesFiftySix
  refine ⟨fun idx => ?_, fun count => ?_⟩
  · have hlt := idx.isLt
    rw [padLen_eq_succ_zeros]
    omega
  · exact padBytes_eq { State.reset with count := count }

/-! ## COUNT as two words -/

/-- COUNT_LO is COUNT modulo 2^32 (R23). -/
theorem countLo_toNat (c : BitVec 64) : (countLo c).toNat = c.toNat % 2 ^ 32 := by
  rw [countLo, toNat_extractLsb'_eq, pow_zero, Nat.div_one]

/-- COUNT_HI is the quotient of COUNT by 2^32 (R23). -/
theorem countHi_toNat (c : BitVec 64) : (countHi c).toNat = c.toNat / 2 ^ 32 := by
  rw [countHi, toNat_extractLsb'_eq, Nat.mod_eq_of_lt (by omega)]

/-- Settles O22: COUNT is COUNT_HI * 2^32 + COUNT_LO, so the sum modulo 2^64 splits at bit 32 into the low word and the high
word with its carry. -/
theorem counterCarriesIntoTheHighWord : Obligations.CounterCarriesIntoTheHighWord := by
  unfold Obligations.CounterCarriesIntoTheHighWord
  intro v s lo
  have hlo : lo = s.count.toNat % 2 ^ 32 + 8 := congrArg (· + 8) (countLo_toNat s.count)
  have hsum : (s.count + 8).toNat = (s.count.toNat + 8) % 2 ^ 64 := BitVec.toNat_add _ _
  rw [storeByte_count]
  refine ⟨BitVec.eq_of_toNat_eq ?_, BitVec.eq_of_toNat_eq ?_⟩
  · rw [countLo_toNat, hsum, BitVec.toNat_ofNat, hlo]
    omega
  · rw [countHi_toNat, hsum, BitVec.toNat_ofNat, countHi_toNat, hlo]
    omega

end Sys2Proof.Machine
end

section
/-!
PROOF. The datapath's units (42_datapath.md): the rotator as the library's rotation (O28), the mixing functions bit by bit
(O29), the message schedule and its inverse (O32), and the little-endian units as numbers (O33, O34, O24).
-/

namespace Sys2Proof.Machine

/-! ## The rotator -/

/-- The rotator is the library's left rotation; for s = 0 its right shift is by the whole width. -/
theorem rotl32_eq_rotateLeft (x : Word) (s : BitVec 5) : rotl32 x s = x.rotateLeft s.toNat := by
  rw [BitVec.rotateLeft_def, Nat.mod_eq_of_lt s.isLt, rotl32]
  split
  case isTrue h => simp [h, BitVec.ushiftRight_eq_zero]
  case isFalse => rfl

/-- The defining property of the rotation (R172). -/
theorem getLsbD_rotl32 (x : Word) (s : BitVec 5) {k : Nat} (hk : k < 32) :
    (rotl32 x s).getLsbD ((k + s.toNat) % 32) = x.getLsbD k := by
  have hs : s.toNat < 32 := s.isLt
  rw [rotl32_eq_rotateLeft, BitVec.getLsbD_rotateLeft, Nat.mod_eq_of_lt hs]
  rcases Nat.lt_or_ge (k + s.toNat) 32 with h | h
  · have hlow : ¬ k + s.toNat < s.toNat := by omega
    simp [Nat.mod_eq_of_lt h, h]
  · have hwrap : (k + s.toNat) % 32 = k + s.toNat - 32 := by omega
    have hlow : k + s.toNat - 32 < s.toNat := by omega
    have hbit : 32 - s.toNat + (k + s.toNat - 32) = k := by omega
    simp [hwrap, hlow, hbit]

/-- Settles O28: the bit property is the library rotation's, and the two forms are the branches of the definition. -/
theorem rotatorMovesEveryBit : Obligations.RotatorMovesEveryBit := by
  unfold Obligations.RotatorMovesEveryBit
  refine ⟨fun x s k hk => getLsbD_rotl32 x s hk, fun x s hs => if_neg hs, fun x => if_pos rfl, ?_, rfl, rfl⟩
  decide

/-! ## The mixing functions -/

section

variable (x y z : Word) (k : Nat)

/-- F on one bit position (R174). -/
theorem getLsbD_mixF (hk : k < 32) :
    (mixF x y z).getLsbD k = (x.getLsbD k && y.getLsbD k || !x.getLsbD k && z.getLsbD k) := by simp [mixF, hk]

/-- G on one bit position (R175). -/
theorem getLsbD_mixG (hk : k < 32) :
    (mixG x y z).getLsbD k = (x.getLsbD k && z.getLsbD k || y.getLsbD k && !z.getLsbD k) := by simp [mixG, hk]

/-- H on one bit position (R176). -/
theorem getLsbD_mixH : (mixH x y z).getLsbD k = (x.getLsbD k ^^ y.getLsbD k ^^ z.getLsbD k) := by simp [mixH]

/-- I on one bit position (R177). -/
theorem getLsbD_mixI (hk : k < 32) :
    (mixI x y z).getLsbD k = (y.getLsbD k ^^ (x.getLsbD k || !z.getLsbD k)) := by simp [mixI, hk]

/-- F as a choice: y where x = 1 and z where x = 0, with no complement of x (R174). -/
theorem mixF_eq_xor : mixF x y z = z ^^^ (x &&& (y ^^^ z)) := by
  apply BitVec.eq_of_getLsbD_eq
  intro k hk
  rw [getLsbD_mixF x y z k hk, BitVec.getLsbD_xor, BitVec.getLsbD_and, BitVec.getLsbD_xor]
  cases x.getLsbD k <;> cases y.getLsbD k <;> cases z.getLsbD k <;> rfl

end

/-- Settles O29: each function acts on the three bits at one position, and each table has eight rows. -/
theorem mixingTruthTables : Obligations.MixingTruthTables := by
  unfold Obligations.MixingTruthTables
  refine ⟨fun x y z k hk => ?_, mixF_eq_xor⟩
  rw [getLsbD_mixF x y z k hk, getLsbD_mixG x y z k hk, getLsbD_mixH, getLsbD_mixI x y z k hk]
  cases x.getLsbD k <;> cases y.getLsbD k <;> cases z.getLsbD k <;> decide

/-! ## The message schedule -/

/-- The step of round r that reads message word k: g is affine in i modulo 16 in each round, and 5, 3 and 7 have the
inverses 13, 11 and 7 there. -/
def stepReading (r : BitVec 2) (k : BitVec 4) : BitVec 6 :=
  r ++ match r.toNat with
    | 0 => k
    | 1 => 13 * (k - 1)
    | 2 => 11 * (k - 5)
    | _ => 7 * k

/-- The step that `stepReading` names has the round and reads the word (R183). -/
theorem stepReading_reads (r : BitVec 2) (k : BitVec 4) :
    roundOf (stepReading r k) = r ∧ msgIndex (stepReading r k) = k := by
  revert r k
  decide

/-- A step is determined by its round and the word it reads (R183). -/
theorem stepReading_eq (i : BitVec 6) : stepReading (roundOf i) (msgIndex i) = i := by
  revert i
  decide

/-- Settles O32: `stepReading` names the step, and as an inverse it names the only one. -/
theorem schedulesArePermutations : Obligations.SchedulesArePermutations := by
  unfold Obligations.SchedulesArePermutations
  refine ⟨fun r k => ⟨stepReading r k, stepReading_reads r k, ?_⟩, by decide⟩
  rintro j ⟨rfl, rfl⟩
  exact (stepReading_eq j).symm

/-! ## The little-endian units -/

/-- A little-endian word is its four bytes side by side, the first one lowest (R53). -/
theorem wordLE_eq_append (b0 b1 b2 b3 : Byte) : wordLE b0 b1 b2 b3 = b3 ++ b2 ++ b1 ++ b0 := by
  apply BitVec.eq_of_getLsbD_eq
  intro k hk
  simp only [wordLE, BitVec.getLsbD_append, BitVec.getLsbD_or, BitVec.getLsbD_shiftLeft, BitVec.getLsbD_setWidth]
  grind

/-- A little-endian word as a number (R185). -/
theorem wordLE_toNat (b0 b1 b2 b3 : Byte) :
    (wordLE b0 b1 b2 b3).toNat = b0.toNat + b1.toNat * 2 ^ 8 + b2.toNat * 2 ^ 16 + b3.toNat * 2 ^ 24 := by
  rw [wordLE_eq_append]
  simp only [toNat_append_eq]
  omega

/-- Settles O33: the start of a transform decodes BUF word by word. -/
theorem decoderIsLittleEndian : Obligations.DecoderIsLittleEndian := by
  unfold Obligations.DecoderIsLittleEndian
  intro s j
  simp only [startTransform_xbuf, decodeBlock, Vector.getElem_ofFn, bufWord, wordLE_toNat]

/-- Byte j of a word as a number (R53). -/
theorem byteOfWord_toNat (v : Word) (j : Nat) : (byteOfWord v j).toNat = v.toNat / 2 ^ (8 * j) % 256 :=
  toNat_extractLsb'_eq v (8 * j) 8

/-- Each byte of the digest encoder (R186). -/
theorem getElem_encodeDigest (q : Quad) (w j : Fin 4) :
    (encodeDigest q)[4 * w.val + j.val] = byteOfWord (q.get w) j := by
  have hw : (4 * w.val + j.val) / 4 = w := by omega
  have hj : (4 * w.val + j.val) % 4 = j := by omega
  simp only [encodeDigest, Vector.getElem_ofFn, hw, hj, Fin.eta]

/-- The length encoder as one rule for all eight bytes (R187). -/
theorem lengthBytes_eq_map (len : BitVec 64) :
    lengthBytes len = (List.range 8).map fun k => len.extractLsb' (8 * k) 8 := rfl

/-- Settles O34: each encoder picks bits 8j + 7 down to 8j, which is byte j of the number. -/
theorem encodersAreLittleEndian : Obligations.EncodersAreLittleEndian := by
  unfold Obligations.EncodersAreLittleEndian
  refine ⟨fun s w j => ?_, fun len k => ?_, by decide, by decide⟩
  · simp only [freezeDigest_digest, getElem_encodeDigest, byteOfWord_toNat]
  · rw [lengthBytes_eq_map, List.getElem?_map, List.getElem?_range k.isLt, Option.map_some, Option.map_some,
      toNat_extractLsb'_eq]
    rfl

/-! ## The hex renderer -/

/-- HexChar as a number (R188). -/
theorem hexChar_toNat (n : BitVec 4) :
    (hexChar n).toNat = if n.toNat ≤ 9 then 0x30 + n.toNat else 0x61 + (n.toNat - 10) := by
  revert n
  decide

/-- The nibble of hex character j as a number (R188). -/
theorem digestNibble_toNat (d : Vector Byte 16) (j : BitVec 5) :
    (digestNibble d j).toNat =
      if j.toNat % 2 = 0 then (d[j.toNat / 2]'(by have := j.isLt; omega)).toNat / 16
      else (d[j.toNat / 2]'(by have := j.isLt; omega)).toNat % 16 := by
  have hbyte : (j.extractLsb' 1 4).toNat = j.toNat / 2 := by
    rw [toNat_extractLsb'_eq]
    omega
  have hparity : j.extractLsb' 0 1 = 0 ↔ j.toNat % 2 = 0 := by
    rw [← BitVec.toNat_inj, toNat_extractLsb'_eq]
    simp
  simp only [digestNibble, digestByte, hbyte, hparity]
  split <;> (rw [toNat_extractLsb'_eq]; omega)

/-- Settles O24: the read is answered with the rendered nibble, and a nibble is below 16. -/
theorem rhexReturnsTheHexCharacter : Obligations.RhexReturnsTheHexCharacter := by
  unfold Obligations.RhexReturnsTheHexCharacter
  intro s j hf byte nibble char
  have hnibble : (digestNibble s.digest j).toNat = nibble := digestNibble_toNat s.digest j
  have hchar : (hexChar (digestNibble s.digest j)).toNat = char := by rw [hexChar_toNat, hnibble]
  constructor
  · rw [exec, execRhex, readDigest, if_pos hf, respond, respWord_ok, ← hchar, BitVec.ofNat_toNat]
  · have hlt : nibble < 16 := hnibble ▸ (digestNibble s.digest j).isLt
    simp only [char]
    split <;> omega

end Sys2Proof.Machine
end

section
/-!
PROOF. The constant ROM against the sine (R181): a Gaussian integer over 16! stands for e^i within 2^-48, its powers for the
points e^(ik) of the unit circle, and their imaginary parts for sin k, exactly enough to fix all 64 floors (O31).
-/

namespace Sys2Proof.Machine

/-! ## One radian as a Gaussian integer -/

/-- 16! times the Taylor polynomial of degree 16 of the exponential, at the imaginary unit. -/
def radian : GaussianInt := ⟨11304631621681, 17605920611984⟩

/-- The unit circle's point at one radian, up to the Taylor remainder. -/
noncomputable def radianPoint : ℂ := (radian : ℂ) / (Nat.factorial 16 : ℂ)

/-- The Taylor polynomial of the exponential at the imaginary unit, evaluated. -/
theorem taylor_eq_radianPoint : ∑ m ∈ Finset.range 17, Complex.I ^ m / (m.factorial : ℂ) = radianPoint := by
  simp only [radianPoint, radian, GaussianInt.toComplex_def', Finset.sum_range_succ, Finset.sum_range_zero, Nat.factorial]
  apply Complex.ext <;> norm_num [pow_succ, Complex.div_re, Complex.div_im]

/-- The Taylor remainder after seventeen terms is at most 18 / (17! * 17). -/
theorem norm_radianPoint_sub_exp : ‖radianPoint - Complex.exp Complex.I‖ ≤ 2⁻¹ ^ 48 := by
  have h := Complex.exp_bound (x := Complex.I) Complex.norm_I.le (n := 17) (by decide)
  rw [taylor_eq_radianPoint, norm_sub_rev] at h
  refine h.trans ?_
  norm_num [Nat.factorial]

/-- Degree 16 keeps the Taylor polynomial in the unit disc, so that its powers do not grow. -/
theorem norm_radianPoint_le_one : ‖radianPoint‖ ≤ 1 := by
  rw [← sq_le_one_iff₀ (norm_nonneg _), Complex.sq_norm, radianPoint, map_div₀, ← GaussianInt.intCast_real_norm,
    Complex.normSq_natCast, div_le_one (by positivity)]
  norm_num [radian, Zsqrtd.norm, Nat.factorial]

/-! ## The powers -/

/-- Powers of two numbers in the unit disc stay as near as the exponent times the numbers' distance. -/
theorem norm_pow_sub_pow_le_mul {z w : ℂ} (hz : ‖z‖ ≤ 1) (hw : ‖w‖ ≤ 1) (k : ℕ) : ‖z ^ k - w ^ k‖ ≤ k * ‖z - w‖ := by
  induction k with
  | zero => simp
  | succ k ih =>
    calc ‖z ^ (k + 1) - w ^ (k + 1)‖ = ‖z * (z ^ k - w ^ k) + (z - w) * w ^ k‖ := by congr 1; ring
      _ ≤ ‖z‖ * ‖z ^ k - w ^ k‖ + ‖z - w‖ * ‖w‖ ^ k := by
        simpa only [norm_mul, norm_pow] using norm_add_le (z * (z ^ k - w ^ k)) ((z - w) * w ^ k)
      _ ≤ 1 * (k * ‖z - w‖) + ‖z - w‖ * 1 := by
        gcongr
        exact pow_le_one₀ (norm_nonneg w) hw
      _ = (k + 1 : ℕ) * ‖z - w‖ := by push_cast; ring

/-- The approximate sine of k radians: the k-th power of `radianPoint`, as integers. -/
noncomputable def approxSin (k : ℕ) : ℝ := ((radian ^ k).im : ℝ) / (Nat.factorial 16 : ℝ) ^ k

/-- The error of the approximate sine grows by at most the remainder with each radian. -/
theorem abs_approxSin_sub_sin_le (k : ℕ) : |approxSin k - Real.sin k| ≤ k * 2⁻¹ ^ 48 := by
  have hpoint : approxSin k = (radianPoint ^ k).im := by
    rw [approxSin, radianPoint, div_pow, ← map_pow, ← Nat.cast_pow, ← Nat.cast_pow, Complex.div_natCast_im,
      GaussianInt.intCast_im]
  have hsin : Real.sin k = (Complex.exp Complex.I ^ k).im := by
    rw [← Complex.exp_nat_mul, ← Complex.exp_ofReal_mul_I_im, Complex.ofReal_natCast]
  have hexp : ‖Complex.exp Complex.I‖ ≤ 1 := by simpa using (Complex.norm_exp_ofReal_mul_I 1).le
  rw [hpoint, hsin, ← Complex.sub_im]
  calc |(radianPoint ^ k - Complex.exp Complex.I ^ k).im| ≤ ‖radianPoint ^ k - Complex.exp Complex.I ^ k‖ :=
        Complex.abs_im_le_norm _
    _ ≤ k * ‖radianPoint - Complex.exp Complex.I‖ := norm_pow_sub_pow_le_mul norm_radianPoint_le_one hexp k
    _ ≤ k * 2⁻¹ ^ 48 := by gcongr; exact norm_radianPoint_sub_exp

/-! ## The table -/

/-- KROM's entry is the integer part of 2^32 |sin(i + 1)| for the approximate sine, with 1/128 to spare on both sides. -/
theorem krom_bounds (i : BitVec 6) :
    (128 * (krom i).toNat + 1) * Nat.factorial 16 ^ (i.toNat + 1) ≤ 2 ^ 39 * (radian ^ (i.toNat + 1)).im.natAbs ∧
    2 ^ 39 * (radian ^ (i.toNat + 1)).im.natAbs ≤ (128 * (krom i).toNat + 127) * Nat.factorial 16 ^ (i.toNat + 1) := by
  revert i
  decide +kernel

/-- `krom_bounds` on the real approximate sine. -/
theorem krom_bounds_real (i : BitVec 6) :
    128 * ((krom i).toNat : ℝ) + 1 ≤ 2 ^ 39 * |approxSin (i.toNat + 1)| ∧
    2 ^ 39 * |approxSin (i.toNat + 1)| ≤ 128 * ((krom i).toNat : ℝ) + 127 := by
  obtain ⟨hlo, hhi⟩ := krom_bounds i
  have hpos : (0 : ℝ) < (Nat.factorial 16 : ℝ) ^ (i.toNat + 1) := by positivity
  rw [approxSin, abs_div, abs_of_pos hpos, ← mul_div_assoc, le_div_iff₀ hpos, div_le_iff₀ hpos, ← Int.cast_abs,
    ← Nat.cast_natAbs]
  exact ⟨mod_cast hlo, mod_cast hhi⟩

/-- Settles O31: the approximate sine is within 64 * 2^-48, so that 2^32 |sin| is off by at most 2^-10, less than the 1/128
that `krom_bounds` leaves. -/
theorem constantRomIsTheSineTable : Obligations.ConstantRomIsTheSineTable := by
  unfold Obligations.ConstantRomIsTheSineTable
  intro i
  obtain ⟨hlo, hhi⟩ := krom_bounds_real i
  have hk : ((i.toNat + 1 : ℕ) : ℝ) ≤ 64 := mod_cast i.isLt
  have hsin := (abs_abs_sub_abs_le _ _).trans (abs_approxSin_sub_sin_le (i.toNat + 1))
  obtain ⟨hlow, hhigh⟩ := abs_le.mp hsin
  rw [Nat.cast_succ] at hlow hhigh hk
  symm
  rw [Int.floor_eq_iff, Int.cast_natCast]
  constructor <;> linarith

end Sys2Proof.Machine
end

section
/-!
PROOF. The compression's two views of a step (R207, R208): the roles of the fixed slots turn by one place a step, so that the
views agree after every four (O39), and a transform is the fixed-slot view's 64 steps with the feed-forward (O40).
-/

namespace Sys2Proof.Machine

/-! ## The turning roles -/

/-- The slots under the roles that they have one step later: the slot of `d` takes the role of `a` (R208). -/
def turnRoles (w : Quad) : Quad := ⟨w.d, w.a, w.b, w.c⟩

/-- After four turns every slot has its first role again (R208). -/
theorem isPeriodicPt_turnRoles (w : Quad) : Function.IsPeriodicPt turnRoles 4 w := rfl

/-- The adder tree's sum with X[g] and K added to each other first, as the fixed-slot view has it (R171, R208). -/
theorem stepSum_eq (f : Word → Word → Word → Word) (x : Vector Word 16) (i : BitVec 6) (w : Quad) :
    stepSum f x i w = add32 (add32 w.a (f w.b w.c w.d)) (add32 (x[(msgIndex i).toNat]'(msgIndex i).isLt) (krom i)) :=
  BitVec.add_assoc _ _ _

/-- The fixed-slot step on the slots is the role step on the roles that the position gives them, and then one more turn
(R207, R208). -/
theorem stepBody_turnRoles (f : Word → Word → Word → Word) (x : Vector Word 16) (i : BitVec 6) (w : Quad) :
    stepBody f x i (turnRoles^[(posOf i).toNat] w) = turnRoles (turnRoles^[(posOf i).toNat] (slotStep f x i w)) := by
  have hpos : ∀ p : BitVec 2, p = 0 ∨ p = 1 ∨ p = 2 ∨ p = 3 := by decide
  rw [stepBody, stepSum_eq, slotStep]
  obtain hp | hp | hp | hp := hpos (posOf i) <;> rw [hp] <;> rfl

/-- The position of a step is its number modulo 4 (R205). -/
theorem posOf_ofNat_toNat (i : Nat) : (posOf (BitVec.ofNat 6 i)).toNat = i % 4 := by
  rw [posOf, toNat_extractLsb'_eq, BitVec.toNat_ofNat]
  omega

/-- Turning as often as the position of step i says is turning i times: four turns are none (R205, R208). -/
theorem iterate_turnRoles_posOf (i : Nat) (w : Quad) : turnRoles^[(posOf (BitVec.ofNat 6 i)).toNat] w = turnRoles^[i] w := by
  rw [posOf_ofNat_toNat, (isPeriodicPt_turnRoles w).iterate_mod_apply]

/-- Steps from step i on: where the roles are the slots turned once for every step before, they still are after them
(R207, R208). -/
theorem roundsFrom_turnRoles (x : Vector Word 16) (n i : Nat) (w : Quad) :
    roundsFrom x n i (turnRoles^[i] w) = turnRoles^[i + n] (slotRoundsFrom x n i w) := by
  induction n generalizing i w with
  | zero => rfl
  | succ n ih =>
    rw [roundsFrom, slotRoundsFrom, ← iterate_turnRoles_posOf, stepBody_turnRoles, iterate_turnRoles_posOf,
      ← Function.iterate_succ_apply' turnRoles, ih, Nat.succ_add_eq_add_succ]

/-! ## Four steps, and the whole transform -/

/-- Settles O39: after 4n steps the slots have turned 4n times, so that each has its first role. -/
theorem fixedSlotViewAgrees : Obligations.FixedSlotViewAgrees := by
  unfold Obligations.FixedSlotViewAgrees
  intro x w n _
  have hviews := roundsFrom_turnRoles x (4 * n) 0 w
  rwa [Nat.zero_add, ((isPeriodicPt_turnRoles _).mul_const n).eq] at hviews

/-- Settles O40: `transform_eq` says all that a transform writes, and its 64 steps are sixteen groups of four. -/
theorem transformCompressesTheBlock : Obligations.TransformCompressesTheBlock := by
  unfold Obligations.TransformCompressesTheBlock
  intro s x v
  have hrounds : roundsFrom (decodeBlock s.buf) 64 0 s.chain = v := by
    rw [decodeBlock_eq]
    exact fixedSlotViewAgrees x s.chain 16 le_rfl
  rw [transform_eq, compressWords, hrounds]
  rfl

end Sys2Proof.Machine
end

section
/-!
PROOF. The printed schedule beside the ROMs (O30); and the step micro-operations FF, GG, HH and II (R201 to R204), each a row of
the schedule, whose fields fix the next state (O35 to O38).
-/

namespace Sys2Proof.Machine

/-! ## The printed schedule -/

/-- Settles O30: the 64 printed rows are compared one by one. -/
theorem scheduleTableAgreesWithTheRoms : Obligations.ScheduleTableAgreesWithTheRoms := by
  unfold Obligations.ScheduleTableAgreesWithTheRoms
  exact ⟨rfl, by decide⟩

/-! ## One row of the schedule -/

/-- Step i in the schedule: the micro-operation it decodes to, its round, the message word it reads and its rotate amount
(R78, R182, R183, R205). -/
structure StepRow (i : Nat) (k : Instr) (r : BitVec 2) (g : Nat) (amount : BitVec 5) : Prop where
  decode : decodeStep (BitVec.ofNat 6 i) = k
  round : roundOf (BitVec.ofNat 6 i) = r
  reads : (msgIndex (BitVec.ofNat 6 i)).toNat = g
  rotates : srom (roundOf (BitVec.ofNat 6 i)) (posOf (BitVec.ofNat 6 i)) = amount

/-- The working words after step i of round r, from the message word and the rotate amount of its row (R207). -/
def stepWords (i : Nat) (r : BitVec 2) (m : Word) (amount : BitVec 5) (w : Quad) : Quad :=
  ⟨w.d, w.b + rotl32 (w.a + funSel r w.b w.c w.d + m + krom (BitVec.ofNat 6 i)) amount, w.b, w.c⟩

section

variable {i : Nat} {k : Instr} {r : BitVec 2} {g : Nat} {amount : BitVec 5}

/-- The step body of a row (R207). -/
theorem StepRow.stepBody_eq (h : StepRow i k r g amount) (hg : g < 16) (x : Vector Word 16) (w : Quad) :
    stepBody (funSel r) x (BitVec.ofNat 6 i) w = stepWords i r x[g] amount w := by
  obtain ⟨-, -, rfl, rfl⟩ := h
  rfl

/-- Before step 63 the micro-operation of a row runs the step body and advances STEP (R207). -/
theorem StepRow.exec_of_lt (h : StepRow i k r g amount) (hg : g < 16) (hi : i < 63) (s : State) :
    exec k s = .next { s with work := stepWords i r s.xbuf[g] amount s.work, stepCtr := BitVec.ofNat 6 (i + 1) } := by
  have hne : BitVec.ofNat 6 i ≠ 63 := by bv_omega
  rw [← h.decode, exec_decodeStep, h.round, microOp_of_ne _ _ _ hne, h.stepBody_eq hg, BitVec.ofNat_add]
  rfl

/-- At step 63 the feed-forward follows the step body (R207, R210). -/
theorem StepRow.exec_last (h : StepRow i k r g amount) (hg : g < 16) (hi : i = 63) (s : State) :
    exec k s = .next (finishTransform { s with work := stepWords i r s.xbuf[g] amount s.work }) := by
  rw [← h.decode, exec_decodeStep, h.round, ← h.stepBody_eq hg, hi]
  exact congrArg _ (microOp_last (funSel r) s)

end

/-! ## The four rounds -/

/-- The rows of FF (R201). -/
theorem stepRow_ff (q p : BitVec 2) :
    StepRow (4 * q.toNat + p.toNat) (.ff q p) 0 ((4 * q.toNat + p.toNat) % 16) ([7, 12, 17, 22].getD p.toNat 0) := by
  constructor <;> revert q p <;> decide

/-- The rows of GG (R202). -/
theorem stepRow_gg (q p : BitVec 2) :
    StepRow (16 + 4 * q.toNat + p.toNat) (.gg q p) 1 ((5 * (16 + 4 * q.toNat + p.toNat) + 1) % 16)
      ([5, 9, 14, 20].getD p.toNat 0) := by
  constructor <;> revert q p <;> decide

/-- The rows of HH (R203). -/
theorem stepRow_hh (q p : BitVec 2) :
    StepRow (32 + 4 * q.toNat + p.toNat) (.hh q p) 2 ((3 * (32 + 4 * q.toNat + p.toNat) + 5) % 16)
      ([4, 11, 16, 23].getD p.toNat 0) := by
  constructor <;> revert q p <;> decide

/-- The rows of II (R204). -/
theorem stepRow_ii (q p : BitVec 2) :
    StepRow (48 + 4 * q.toNat + p.toNat) (.ii q p) 3 ((7 * (48 + 4 * q.toNat + p.toNat)) % 16)
      ([6, 10, 15, 21].getD p.toNat 0) := by
  constructor <;> revert q p <;> decide

/-- Settles O35: a row of FF is before step 63. -/
theorem ffStepResult : Obligations.FFStepResult := by
  unfold Obligations.FFStepResult
  intro q p s
  exact ⟨(stepRow_ff q p).decode, (stepRow_ff q p).exec_of_lt (Nat.mod_lt _ (by decide)) (by omega) s⟩

/-- Settles O36: a row of GG is before step 63. -/
theorem ggStepResult : Obligations.GGStepResult := by
  unfold Obligations.GGStepResult
  intro q p s
  exact ⟨(stepRow_gg q p).decode, (stepRow_gg q p).exec_of_lt (Nat.mod_lt _ (by decide)) (by omega) s⟩

/-- Settles O37: a row of HH is before step 63. -/
theorem hhStepResult : Obligations.HHStepResult := by
  unfold Obligations.HHStepResult
  intro q p s
  exact ⟨(stepRow_hh q p).decode, (stepRow_hh q p).exec_of_lt (Nat.mod_lt _ (by decide)) (by omega) s⟩

/-- Settles O38: the rows of II before step 63, and its last row with the feed-forward. -/
theorem iiStepResult : Obligations.IIStepResult := by
  unfold Obligations.IIStepResult
  intro q p s
  have hg : (7 * (48 + 4 * q.toNat + p.toNat)) % 16 < 16 := Nat.mod_lt _ (by decide)
  exact ⟨(stepRow_ii q p).decode, fun hi => (stepRow_ii q p).exec_of_lt hg (by omega) s,
    fun hi => (stepRow_ii q p).exec_last hg hi s⟩

end Sys2Proof.Machine
end

section
/-!
PROOF. The errors (R232 to R237): each answer is OK or raises an error, and an error changes ERR and the response port alone
(O9, O18, O25, O42); so ERR is sticky (O43). And an idle engine without a command (O10).
-/

namespace Sys2Proof.Machine

variable {s t : State}

/-! ## The two kinds of answer -/

/-- The answer `t` to a command begun in `s`, as far as ERR goes: OK with ERR as it was, or an error raised in `s` (R233). -/
inductive Verdict (s t : State) : Prop
  | ok : respStatus t.resp = 0 → t.err = s.err → Verdict s t
  | error (st : Status) : st ≠ .ok → t = raise st s → Verdict s t

/-- An error status shows in the response word (R76, R231). -/
theorem respStatus_raise_ne {st : Status} (h : st ≠ .ok) (s : State) : respStatus (raise st s).resp ≠ 0 := by
  rw [raise_resp, respStatus_respWord]
  exact fun hc => h (st.code_le.2.mp hc)

/-- An answer whose status is not OK is an error raised. -/
theorem Verdict.exists_raise (h : Verdict s t) (hr : respStatus t.resp ≠ 0) : ∃ st, t = raise st s := by
  cases h with
  | ok hok => exact absurd hok hr
  | error st _ ht => exact ⟨st, ht⟩

/-- An answer sets ERR when its status is not OK, and else leaves it (R233). -/
theorem Verdict.err_eq (h : Verdict s t) : t.err = (s.err || respStatus t.resp != 0) := by
  cases h with
  | ok hok herr => simp [hok, herr]
  | error st hst ht =>
    subst ht
    rw [raise_err, bne_iff_ne.mpr (respStatus_raise_ne hst s), Bool.or_true]

/-- An UPDATE answers OK and keeps ERR, or raises E_FINALIZED (R102, R234). -/
theorem verdict_absorb (bytes : List Byte) (s : State) : Verdict s (absorb bytes s) := by
  unfold absorb
  split
  · exact .error .eFinalized (by decide) rfl
  · exact .ok (respStatus_respWord .ok 0) (appendBytes_err bytes (.inl rfl))

/-- A FINAL answers OK and keeps ERR (R103). -/
theorem verdict_final (s : State) : Verdict s (respond .ok 0 (if s.finalized then s else padAndFinish s)) := by
  refine .ok (respStatus_respWord .ok 0) ?_
  split
  · rfl
  · exact padAndFinish_err s

/-- Every host command but INIT leaves ERR to its verdict; INIT answers OK and clears it (R101, R233). -/
theorem exec_verdict {i : Instr} (hc : i.isCommand = true) (he : exec i s = .next t) :
    (i = .init ∧ respStatus t.resp = 0 ∧ t.err = false) ∨ (i ≠ .init ∧ Verdict s t) := by
  obtain ⟨rfl, rfl⟩ | ⟨hu, rfl⟩ | ⟨rfl, rfl⟩ | ⟨hi, hread⟩ | ⟨rfl, rfl⟩ := exec_command_cases hc he
  · exact .inl ⟨rfl, respStatus_respWord .ok 0, rfl⟩
  · exact .inr ⟨fun hi => absurd hu (hi ▸ nofun), verdict_absorb _ s⟩
  · exact .inr ⟨nofun, verdict_final s⟩
  · refine .inr ⟨by obtain ⟨k, rfl⟩ | ⟨j, rfl⟩ := hi <;> nofun, ?_⟩
    obtain ⟨b, -, rfl⟩ | ⟨-, rfl⟩ := hread
    · exact .ok (respStatus_respWord .ok b) rfl
    · exact .error .eNotFinal (by decide) rfl
  · exact .inr ⟨nofun, .ok (respStatus_respWord .ok _) rfl⟩

/-- The verdict on any word of a run, legal or not (R107, R233). -/
theorem runCommand_verdict {w : Word} (hb : Boundary s) (h : runCommand w s = some t) :
    (decodeCommand w = .ok .init ∧ respStatus t.resp = 0 ∧ t.err = false) ∨
      (decodeCommand w ≠ .ok .init ∧ Verdict (accept (s.issue w)) t) := by
  cases hd : decodeCommand w with
  | ok i =>
    have hc := decodeCommand_isCommand hd
    obtain ⟨u, he, -⟩ := exec_withHost hc (accept (s.issue w))
    obtain rfl : t = u := Option.some.inj (h.symm.trans (runCommand_of_decode hb hd he).1)
    simpa using exec_verdict hc he
  | error r =>
    obtain rfl := Option.some.inj (h.symm.trans (runCommand_of_illegal hb hd).1)
    exact .inr ⟨nofun, .error .eIllegal (by decide) rfl⟩

/-- Settles O42: an answer that is not OK is an error raised in the state that accepted the command. -/
theorem errorsArePrecise : Obligations.ErrorsArePrecise := by
  unfold Obligations.ErrorsArePrecise
  refine ⟨fun i s t hc he hr => ?_, fun w s t hb h hr => ?_⟩
  · obtain ⟨-, hok, -⟩ | ⟨-, hv⟩ := exec_verdict hc he
    · exact absurd hok hr
    · obtain ⟨st, rfl⟩ := hv.exists_raise hr
      rfl
  · obtain ⟨-, hok, -⟩ | ⟨-, hv⟩ := runCommand_verdict hb h
    · exact absurd hok hr
    · obtain ⟨st, rfl⟩ := hv.exists_raise hr
      rfl

/-! ## ERR is sticky -/

/-- No step of the sequencer's own writes ERR: what an engine has begun answers OK (R102, R103, R207). -/
theorem SequencerStep.err_eq (h : SequencerStep s t) : t.err = s.err := by
  cases h with
  | endUpdate => rfl
  | endFinal => rfl
  | byte => rw [presentByte_frame]
  | compress =>
    unfold seqMicroOp microOp
    split <;> rfl

/-- No event of the host sets ERR (R108). -/
theorem hostTurn_err_of_clear (h : s.err = false) : (hostTurn s).err = false := by
  obtain ⟨-, ht⟩ | ⟨e, es, -, ht⟩ := hostTurn_cases s <;> rw [ht]
  · exact h
  · cases e with
    | issue w => exact h
    | wait => exact h
    | assertReset => rfl
    | releaseReset => exact h

/-- Of a step out of reset, only an INIT that runs in an IDLE engine writes ERR to 0, short of a reset (R233). -/
theorem step_keeps_err (hr : s.rst = false) (hhead : s.host.head? ≠ some .assertReset) (hs : step s = .next t)
    (he : s.err = true) :
    t.err = true ∨ (s.seq = .idle ∧ s.cmdValid = true ∧ decodeCommand s.cmd = .ok .init) := by
  have hturn : (hostTurn s).err = true := by
    rw [hostTurn_frame hhead]
    exact he
  by_cases hq : s.seq = .idle
  · obtain ⟨-, ⟨hr', -⟩ | ⟨-, -, -, rfl⟩ | ⟨-, -, hv, hcmd⟩ | ⟨-, hq', -⟩ | ⟨-, -, hbusy⟩⟩ := cycle_cases hs
    · simp [hr] at hr'
    · exact .inl hturn
    · obtain ⟨i, hd, hexec⟩ | ⟨-, -, rfl⟩ := hcmd
      · obtain ⟨rfl, -⟩ | ⟨-, hverdict⟩ := exec_verdict (decodeCommand_isCommand hd) hexec
        · exact .inr ⟨hq, hv, hd⟩
        · exact .inl (by rw [hverdict.err_eq, accept_err, he, Bool.true_or])
      · exact .inl rfl
    · exact absurd hq hq'
    · simp [hq] at hbusy
  · obtain ⟨-, rfl⟩ | ⟨-, hown⟩ := cycle_busy_cases hq hr hs
    · exact .inl hturn
    · exact .inl (by rw [hown.err_eq, hostPause_eq, he])

/-- A step of an engine in reset leaves ERR clear, whatever the host does (R260). -/
theorem step_in_reset_err (hr : s.rst = true) (hs : step s = .next t) : t.err = false := by
  obtain ⟨-, ⟨-, rfl⟩ | ⟨hr', -⟩ | ⟨hr', -⟩ | ⟨hr', -⟩ | ⟨hr', -⟩⟩ := cycle_cases hs
  · exact hostTurn_err_of_clear rfl
  all_goals simp [hr] at hr'

/-- Settles O43: INIT clears ERR, every other word leaves it to its verdict, and every other step keeps it. -/
theorem errIsSticky : Obligations.ErrIsSticky := by
  unfold Obligations.ErrIsSticky
  refine ⟨fun w s t hb h => ?_, fun s t hs he hclear => ?_, fun s t hr hs _ => step_in_reset_err hr hs⟩
  · obtain ⟨hd, -, hclear⟩ | ⟨hd, hv⟩ := runCommand_verdict hb h
    · exact ⟨fun _ => hclear, fun hd' => absurd hd hd'⟩
    · exact ⟨fun hd' => absurd hd' hd, fun _ => hv.err_eq⟩
  · by_cases hr : s.rst = true
    · exact .inl hr
    · refine .inr ?_
      by_cases hhead : s.host.head? = some .assertReset
      · exact .inl hhead
      · have hkept := step_keeps_err (by simpa using hr) hhead hs he
        exact .inr (hkept.resolve_left (by simp [hclear]))

/-! ## Each error, and the engine at rest -/

/-- Settles O9: the illegal word is accepted and E_ILLEGAL raised, which leaves SEQ IDLE as it was. -/
theorem illegalWordSetsOnlyErr : Obligations.IllegalWordSetsOnlyErr := by
  unfold Obligations.IllegalWordSetsOnlyErr
  intro s r hb hv hd
  rw [step, cycle_of_illegal hb hv hd, raise, respond, accept, hb.idle]
  rfl

/-- Settles O18: the check of FINALIZED comes before any byte is appended. -/
theorem updateAfterFinalIsRejected : Obligations.UpdateAfterFinalIsRejected := by
  unfold Obligations.UpdateAfterFinalIsRejected
  intro s bytes i hi hf
  rw [updateInstr_exec hi, absorb, if_pos hf]
  rfl

/-- Before FINAL a read of the digest is rejected, whatever its byte (R235). -/
theorem readDigest_of_not_finalized (hf : s.finalized = false) (b : Byte) : readDigest b s = raise .eNotFinal s := by
  rw [readDigest, if_neg (by simp [hf])]

/-- Settles O25: both commands are reads of the digest. -/
theorem readBeforeFinalIsRejected : Obligations.ReadBeforeFinalIsRejected := by
  unfold Obligations.ReadBeforeFinalIsRejected
  intro s hf
  exact ⟨fun _ => congrArg Host.Outcome.next (readDigest_of_not_finalized hf _),
    fun _ => congrArg Host.Outcome.next (readDigest_of_not_finalized hf _)⟩

/-- With no command on the port of an idle engine it is the host's turn, at either level (R246). -/
theorem cycle_of_noCommand {start run : Instr → State → Host.Outcome State Fault Refusal} (hb : Boundary s)
    (hv : s.cmdValid = false) : cycle start run s = .next (hostTurn s) := by
  simp [cycle, hb.idle, hb.noReset, hb.oneHost, hv]

/-- Settles O10: the host's turn, without an event, changes nothing. -/
theorem idleEngineHoldsItsState : Obligations.IdleEngineHoldsItsState := by
  unfold Obligations.IdleEngineHoldsItsState
  intro s hb hv hh
  rw [step, cycle_of_noCommand hb hv, hostTurn, hh]

end Sys2Proof.Machine
end

section
/-!
PROOF. Two hosts on one engine (O11); hardware reset, from any state (O47) and during a command (O13).
-/

namespace Sys2Proof.Machine

variable {s : State} {start run : Instr → State → Host.Outcome State Fault Refusal}

/-- A second host is refused before anything moves, at either level (R62, R268). -/
theorem cycle_of_secondHost (h : s.secondHost = true) : cycle start run s = .refused .twoHosts := if_pos h

/-- Settles O11: both levels are cycles. -/
theorem twoHostsAreRefused : Obligations.TwoHostsAreRefused := by
  unfold Obligations.TwoHostsAreRefused
  exact fun s h => ⟨cycle_of_secondHost h, cycle_of_secondHost h⟩

/-! ## The state of an engine that is reset -/

/-- The reset state beside inputs of its own: RST, the host's events to come, the word on the port, and the number of the next
free value of RESP. An engine in reset or just out of it is in a state of this form (R260). -/
def resetBeside (rst : Bool) (es : List HostEvent) (w : Word) (v : Bool) (tick : Nat) : State :=
  { State.reset with rst := rst, host := es, cmd := w, cmdValid := v, freeTick := tick }

section
variable (r : Bool) (es : List HostEvent) (w : Word) (v : Bool) (n : Nat)

/-- A reset engine keeps the invariant, whatever its inputs are: it is the hardware reset of a state with those inputs. -/
theorem engineInv_resetBeside : EngineInv (resetBeside r es w v n) := engineInv_hardReset (resetBeside r es w v n) r

/-- A reset engine is IDLE, so it is READY as soon as RST is deasserted (R32). -/
theorem resetBeside_ready : (resetBeside r es w v n).ready = !r := Bool.true_and _

end

/-- Hardware reset, with one host, leaves the reset state beside the inputs. -/
theorem hardReset_eq_resetBeside (h2 : s.secondHost = false) :
    hardReset s = resetBeside s.rst s.host s.cmd s.cmdValid s.freeTick := by
  rw [hardReset, h2]
  rfl

/-- The assertion of RST resets the engine in the same event, and keeps the word on the port (R260, R261). -/
theorem drive_assertReset (h2 : s.secondHost = false) :
    drive .assertReset s = resetBeside true s.host s.cmd s.cmdValid s.freeTick := by
  rw [drive, hardReset_eq_resetBeside h2]
  rfl

/-- The host's turn beside a reset engine moves only the inputs: a release deasserts RST, and only an issued word changes the
port. -/
theorem hostTurn_resetBeside (r : Bool) (es : List HostEvent) (w : Word) (v : Bool) (n : Nat) :
    ∃ r' w' v', hostTurn (resetBeside r es w v n) = resetBeside r' es.tail w' v' n ∧
      (es.head? = some .releaseReset → r' = false) ∧ ((∀ x xs, es ≠ .issue x :: xs) → w' = w ∧ v' = v) := by
  cases es with
  | nil => exact ⟨r, w, v, rfl, nofun, fun _ => ⟨rfl, rfl⟩⟩
  | cons e es =>
    cases e with
    | issue x => exact ⟨r, x, true, rfl, nofun, fun hne => absurd rfl (hne x es)⟩
    | wait => exact ⟨r, w, v, rfl, nofun, fun _ => ⟨rfl, rfl⟩⟩
    | assertReset => exact ⟨true, w, v, rfl, nofun, fun _ => ⟨rfl, rfl⟩⟩
    | releaseReset => exact ⟨false, w, v, rfl, fun _ => rfl, fun _ => ⟨rfl, rfl⟩⟩

/-! ## The cycle that resets -/

/-- While RST is asserted an engine is reset and the host has its turn, at either level (R260). -/
theorem cycle_in_reset (hr : s.rst = true) (h2 : s.secondHost = false) :
    cycle start run s = .next (hostTurn (resetBeside true s.host s.cmd s.cmdValid s.freeTick)) := by
  rw [← hr, ← hardReset_eq_resetBeside h2]
  simp [cycle, hr, h2]

/-- RST lands in a busy engine in the step in which its host asserts it, at either level (R261). -/
theorem cycle_busy_assertReset {es : List HostEvent} (hq : s.seq ≠ .idle) (hr : s.rst = false) (h2 : s.secondHost = false)
    (hh : s.host = .assertReset :: es) :
    cycle start run s = .next (resetBeside true es s.cmd s.cmdValid s.freeTick) := by
  have hbeside (go : State → Host.Outcome State Fault Refusal) :
      besideHost go s = .next (resetBeside true es s.cmd s.cmdValid s.freeTick) := by
    rw [besideHost, hostActs, hostTurn, hh]
    exact congrArg Host.Outcome.next (drive_assertReset (s := { s with host := es }) h2)
  cases hseq : s.seq with
  | idle => exact absurd hseq hq
  | append => simp [cycle, hr, h2, hseq, hbeside]
  | compress k => simp [cycle, hr, h2, hseq, hbeside]
  | pad => simp [cycle, hr, h2, hseq, hbeside]

/-! ## The obligations -/

/-- Settles O47: the engine is reset while RST is asserted, and the host's turn moves only its inputs. -/
theorem resetFromAnyState : Obligations.ResetFromAnyState := by
  unfold Obligations.ResetFromAnyState
  intro s hr h2
  obtain ⟨r, w, v, hturn, hrelease, -⟩ := hostTurn_resetBeside true s.host s.cmd s.cmdValid s.freeTick
  refine ⟨resetBeside r s.host.tail w v s.freeTick, hturn ▸ cycle_in_reset hr h2, hturn ▸ cycle_in_reset hr h2,
    by simp [State.ready, hr], rfl, fun hheld => ?_, hrelease, fun hreleased => ?_⟩
  · rw [resetBeside_ready, show r = true from hheld, Bool.not_true]
  · refine ⟨rfl, rfl, rfl, rfl, rfl, fun _ => Vector.getElem_replicate _, fun _ => Vector.getElem_replicate _,
      fun _ => Vector.getElem_replicate _, rfl, rfl, ?_, engineInv_resetBeside ..⟩
    rw [resetBeside_ready, show r = false from hreleased, Bool.not_false]

/-- Settles O13: RST resets the busy engine at once, and the engine then differs from `State.reset` in its inputs alone. -/
theorem resetAbandonsTheCommand : Obligations.ResetAbandonsTheCommand := by
  unfold Obligations.ResetAbandonsTheCommand
  refine ⟨fun s es hq hr h2 hh => ?_, fun s hr h2 => ?_⟩
  · refine ⟨resetBeside true es s.cmd s.cmdValid s.freeTick, cycle_busy_assertReset hq hr h2 hh,
      cycle_busy_assertReset hq hr h2 hh, rfl, rfl, rfl, resetBeside_ready .., fun rest hes => ?_, rfl⟩
    subst hes
    exact ⟨resetBeside false rest s.cmd s.cmdValid s.freeTick, cycle_in_reset rfl rfl, cycle_in_reset rfl rfl,
      resetBeside_ready .., rfl⟩
  · obtain ⟨r, w, v, hturn, -, hport⟩ := hostTurn_resetBeside true s.host s.cmd s.cmdValid s.freeTick
    exact ⟨resetBeside r s.host.tail w v s.freeTick, hturn ▸ cycle_in_reset hr h2, hturn ▸ cycle_in_reset hr h2,
      engineInv_resetBeside .., rfl, hport⟩

end Sys2Proof.Machine
end
